-- ==== Sys2Proof/Word.lean ====
section
/-! DEFINITION. The plain types of the engine: bytes, bit sequences and the key register's word. -/

namespace Sys2Proof

/-- An 8-bit value; read as a number it is unsigned (R12). Bit 7 is position 0 of the block. -/
abbrev Byte := BitVec 8

/-- A bit sequence, position 0 first and most significant (R11). -/
abbrev Bits := List Bool

/-- The word of the register `KEY` (R22): position `p` of the key is bit `9 - p` (R12), so that the literal
`0b1010000010#10` reads as the spec writes that key. -/
abbrev Key := BitVec 10

end Sys2Proof
end

