-- ==== Sys2Proof/Config.lean ====
section
/-! DEFINITION. What one engine fixes for good (R7 to R10, R28), as a record a model is given, and the free values.
The values that this model's engine takes stand in Machine/Tables.lean. -/

namespace Sys2Proof

/-- `BLOCK_BITS` (R7). -/
abbrev blockBits : Nat := 8

/-- `KEY_BITS` (R7). -/
abbrev keyBits : Nat := 10

/-- `SUBKEY_BITS` (R7). -/
abbrev subkeyBits : Nat := 8

/-- `HALF_BITS` (R7). -/
abbrev halfBits : Nat := 4

/-- `KEYSTR_LEN`, the number of characters of a valid key string (R7). -/
abbrev keystrLen : Nat := 10

/-- `LEN_MAX`, the largest payload of one command frame (R10). -/
abbrev lenMax : Nat := 255

/-- The contents of one S-box: `SBOX_ROWS` by `SBOX_COLS` entries, indexed `[row][col]`, each a value 0..3 by its type
(R7, R9, R135). -/
abbrev SBoxTable := Vector (Vector (BitVec 2) 4) 4

/-- The implementation parameters the source does not fix: the contents of the two S-boxes (R9, U5), the codes of the
two key characters (R10), and the switch `FAILED_LOAD_CLEARS_KEY` (D8, U9). -/
structure Config where
  sbox0 : SBoxTable
  sbox1 : SBoxTable
  charZero : Byte
  charOne : Byte
  failedLoadClearsKey : Bool
  deriving DecidableEq, Repr

/-- FREE VALUE (log entries 1 and 2): the bits of `KEY` while no key is installed, "any value" (U4). It has no body: nothing
can be proved of the bits it gives. Draw 0 is `KEY` at `State.reset`; later draws follow a failed LOADKEY and `rst`. -/
opaque Config.freeKey : Nat → Key

end Sys2Proof
end

