-- ==== Sys2Proof/Syntax.lean ====
section
/-! DEFINITION. The five host commands with their operands: one constructor per row of spec/opcode_table.json. -/

namespace Sys2Proof

/-- A command the engine can execute. An operand is used whole (R68): there is no field to take apart. -/
inductive Instr where
  /-- LOADKEY (R190): the payload is the key string, one character code per byte. -/
  | loadkey (payload : List Byte)
  /-- ENCB (R191): the plaintext byte. -/
  | encb (d : Byte)
  /-- DECB (R192): the ciphertext byte. -/
  | decb (d : Byte)
  /-- ENCM (R193): the plaintext bytes, in order. -/
  | encm (payload : List Byte)
  /-- DECM (R194): the ciphertext bytes, in order. -/
  | decm (payload : List Byte)
  deriving DecidableEq, Repr

/-- The operand bytes of a command, in the order its frame carries them (R65). -/
def Instr.payload : Instr → List Byte
  | .loadkey p => p
  | .encb d => [d]
  | .decb d => [d]
  | .encm p => p
  | .decm p => p

end Sys2Proof
end

