-- ==== Sys2Proof/WellFormed.lean ====
section
/-! DEFINITION. Which commands a frame can carry: the payload fits the one-byte `LEN` (R65). -/

namespace Sys2Proof

/-- A payload fits a frame when it has at most `LEN_MAX` bytes (R10, R65). -/
def fitsFrame (payload : List Byte) : Bool := decide (payload.length ≤ lenMax)

/-- The well-formed commands. ENCB and DECB hold exactly one byte by their syntax (R71). -/
def Instr.wf : Instr → Bool
  | .loadkey p => fitsFrame p
  | .encb _ => true
  | .decb _ => true
  | .encm p => fitsFrame p
  | .decm p => fitsFrame p

end Sys2Proof
end

