-- ==== Sys2Proof/Decode.lean ====
section
/-! DEFINITION. Cutting a byte stream into command frames (R65), reading a frame as a command (R67, R70, R71), and the
encoder. -/

namespace Sys2Proof

/-- A whole command frame: byte 0 and the payload. Byte 1, `LEN`, is the payload's length (R65). -/
structure Frame where
  op : Byte
  payload : List Byte
  deriving DecidableEq, Repr

/-- Why a frame is `IllegalCommand`. -/
inductive Illegal where
  /-- An opcode that R67 does not assign (R70). -/
  | opcode (op : Byte)
  /-- ENCB or DECB with `LEN` other than 1 (R71). -/
  | length (op : Byte) (len : Nat)
  deriving DecidableEq, Repr

/-- Why a byte stream does not give a command. -/
inductive Reject where
  /-- The frame is not complete: the engine waits for more bytes (R64). -/
  | incomplete
  /-- The frame is complete and names no operation. -/
  | illegal (why : Illegal)
  deriving DecidableEq, Repr

/-- The opcodes of R67 (decision D11). -/
def opLoadkey : Byte := 0x01
def opEncb : Byte := 0x02
def opDecb : Byte := 0x03
def opEncm : Byte := 0x04
def opDecm : Byte := 0x05

/-- The frame at the head of a byte stream and the bytes after it: two bytes, then `LEN` more, whatever the opcode (R65). -/
def cutFrame : List Byte → Option (Frame × List Byte)
  | op :: len :: rest =>
    if len.toNat ≤ rest.length then some (⟨op, rest.take len.toNat⟩, rest.drop len.toNat) else none
  | _ => none

/-- A command whose payload must be exactly one byte (R71). -/
def oneByte (op : Byte) (make : Byte → Instr) : List Byte → Except Illegal Instr
  | [d] => .ok (make d)
  | p => .error (.length op p.length)

/-- The command of a whole frame, by its opcode (R67); every other frame is refused by name (R70, R71). -/
def decodeFrame (f : Frame) : Except Illegal Instr :=
  if f.op = opLoadkey then .ok (.loadkey f.payload)
  else if f.op = opEncb then oneByte f.op .encb f.payload
  else if f.op = opDecb then oneByte f.op .decb f.payload
  else if f.op = opEncm then .ok (.encm f.payload)
  else if f.op = opDecm then .ok (.decm f.payload)
  else .error (.opcode f.op)

/-- The decoder, total on any bytes: the first command of a stream and the bytes after its frame. -/
def decode (bytes : List Byte) : Except Reject (Instr × List Byte) :=
  match cutFrame bytes with
  | none => .error .incomplete
  | some (f, rest) =>
    match decodeFrame f with
    | .ok i => .ok (i, rest)
    | .error why => .error (.illegal why)

/-- The opcode byte of a command (R67). -/
def Instr.op : Instr → Byte
  | .loadkey _ => opLoadkey
  | .encb _ => opEncb
  | .decb _ => opDecb
  | .encm _ => opEncm
  | .decm _ => opDecm

/-- The bytes of a frame: `OP`, `LEN`, then the payload (R65). -/
def encodeFrame (f : Frame) : List Byte := f.op :: BitVec.ofNat 8 f.payload.length :: f.payload

/-- The command frame of a command (R65, R67). -/
def encode (i : Instr) : List Byte := encodeFrame ⟨i.op, i.payload⟩

/-- One row of spec/opcode_table.json: `mask` and `pattern` are over the 16-bit word made of frame byte 0 (bits 15:8) and frame
byte 1 (bits 7:0). -/
structure OpcodeRow where
  mnemonic : String
  mask : BitVec 16
  pattern : BitVec 16
  deriving DecidableEq, Repr

/-- The opcode table, row by row (R67). -/
def opcodeRows : List OpcodeRow :=
  [⟨"LOADKEY", 0xFF00, 0x0100⟩, ⟨"ENCB", 0xFFFF, 0x0201⟩, ⟨"DECB", 0xFFFF, 0x0301⟩, ⟨"ENCM", 0xFF00, 0x0400⟩,
   ⟨"DECM", 0xFF00, 0x0500⟩]

/-- A row matches a header word. -/
def rowMatches (r : OpcodeRow) (header : BitVec 16) : Bool := header &&& r.mask == r.pattern

/-- The header word of a frame: `OP` in bits 15:8 and `LEN` in bits 7:0. -/
def headerWord (op len : Byte) : BitVec 16 := op ++ len

/-- The mnemonic of a command as the table spells it. -/
def mnemonicOf : Instr → String
  | .loadkey _ => "LOADKEY"
  | .encb _ => "ENCB"
  | .decb _ => "DECB"
  | .encm _ => "ENCM"
  | .decm _ => "DECM"

/-- The 8 bits of a number from bit `lo` up. -/
def byteAt (v lo : Nat) : Byte := BitVec.ofNat 8 (v / 2 ^ lo)

/-- The frame that a table word stands for (log entry 11): bits 15:8 are `OP`, bits 7:0 are `LEN`, and payload byte `k` is bits
`16+8k+7 : 16+8k`; every bit from `nbits` up is 0. -/
def tableFrameBytes (nbits w : Nat) : List Byte :=
  let v := w % 2 ^ nbits
  let len := byteAt v 0
  byteAt v 8 :: len :: (List.range len.toNat).map fun k => byteAt v (16 + 8 * k)

/-- The command the decoder reads from a table word; none where it refuses. -/
def decodeTableWord (nbits w : Nat) : Option Instr :=
  match decode (tableFrameBytes nbits w) with
  | .ok (i, _) => some i
  | .error _ => none

end Sys2Proof
end

