-- ==== Sys2Proof/Machine/State.lean ====
section
/-! DEFINITION. The state of the engine as plain data, the error kinds, the named stops and the state after reset. -/

namespace Sys2Proof.Machine

/-- The error kinds of R221. Each ends one command with its code and no result; it is a response, not a stop. -/
inductive ErrorKind where
  /-- LOADKEY: the key string is not exactly 10 characters `'0'` or `'1'` (R222). -/
  | invalidKeyFormat
  /-- `xor`: operands of different lengths (R223); no command reaches it (R228). -/
  | lengthMismatch
  /-- `applyTable`: a table entry outside the source sequence (R224); no command reaches it (R228). -/
  | indexOutOfRange
  /-- `S0`, `S1`: input not exactly 4 bits (R225); no command reaches it (R228). -/
  | invalidSBoxInput
  /-- A data command while no key is installed (R226). -/
  | keyNotSet
  /-- A frame that names no operation (R227). -/
  | illegalCommand
  deriving DecidableEq, Repr

/-- The stops of `step`. Both are the engine waiting for ever on its host ("stuck, not faulted", R64, D20): the machine takes no
step because the host's list of moments has ended. -/
inductive Fault where
  /-- Raised by `step`: the engine needs a command byte and the host has no further moment (R64, R269). Safe: the model stops
  where the hardware waits unchanged (log entry 8). -/
  | stuckAwaitingCommand
  /-- Raised by `step`: the engine offers a response byte and the host has no further moment (R64, R269). Safe, as above. -/
  | stuckAwaitingHost
  deriving DecidableEq, Repr

/-- What the model refuses by name. -/
inductive Refusal where
  /-- Raised by an arm of `exec` whose instruction has no meaning yet; no arm does so now. Safe. -/
  | notModelled (mnemonic : String)
  /-- Raised by `leftHalf` and `rightHalf` on an odd length (U1). Safe, and no command reaches it. -/
  | oddLengthHalf
  /-- Raised by `bitsToByte` on more than 8 bits (U2). Safe, and no command reaches it. -/
  | moreThanEightBits
  /-- Raised by `byteToBits` on a size above 8 (U3). Safe, and no command reaches it. -/
  | sizeAboveEight
  deriving DecidableEq, Repr

/-- Why an internal function gives no result: it raises an error kind, or the model refuses the operand. -/
inductive Stop where
  | raise (e : ErrorKind)
  | refuse (r : Refusal)
  deriving DecidableEq, Repr

/-- What the host drives on the interface at one moment (R60): `rst`, `cmd_valid` with `cmd_data`, and `rsp_ready`. -/
structure Moment where
  rst : Bool
  /-- `some b` is `cmd_valid` asserted with `b` on `cmd_data`; `none` is `cmd_valid` not asserted. -/
  cmd : Option Byte
  rspReady : Bool
  deriving DecidableEq, Repr

/-- The state: the architectural registers `key` and `keyv` (R22, R23), the interface state of a byte-level model (R31), the two
streams of R61, the host's coming moments, and the model's own count of free values drawn. -/
structure State where
  /-- `KEY` (R22); its bits mean nothing while `keyv` is false (R23). -/
  key : Key
  /-- `KEYV` (R23). -/
  keyv : Bool
  /-- The bytes of the command frame received so far (R31). -/
  rx : List Byte
  /-- The response bytes not yet sent, next byte first (R31). -/
  tx : List Byte
  /-- The command stream since reset: the bytes that have crossed the command channel, in order (R61). -/
  cmdStream : List Byte
  /-- The response stream since reset: the bytes that have crossed the response channel, in order (R61). -/
  rspStream : List Byte
  /-- What the host drives at the coming moments, next moment first (log entry 7). -/
  host : List Moment
  /-- How many free values of `KEY` have been drawn: the model's own field (log entry 3). -/
  draws : Nat
  deriving DecidableEq, Repr

/-- A state in which no key is installed, no command is in progress, no response is pending and both channels are idle (R260), with
the given bits in `KEY`. -/
def State.fresh (key : Key) (draws : Nat) (host : List Moment) : State where
  key := key
  keyv := false
  rx := []
  tx := []
  cmdStream := []
  rspStream := []
  host := host
  draws := draws

/-- The machine right after reset (R32, R260): `KEYV = 0` and `KEY` unspecified, which is the free value of draw 0. -/
def State.reset : State := State.fresh (Config.freeKey 0) 1 []

end Sys2Proof.Machine
end

