-- ==== Sys2Proof/Machine/Flags.lean ====
section
/-! DEFINITION. `KEYV`, the engine's only flag (R23): who reads it and the two ways it is written with `KEY` (R24, R46). -/

namespace Sys2Proof.Machine

/-- `KEYV` read (R24). -/
def keyInstalled (s : State) : Bool := s.keyv

/-- A key installed: all 10 bits of `KEY` and `KEYV = 1` in one write (R46, R190). -/
def installKey (s : State) (k : Key) : State := { s with key := k, keyv := true }

/-- No key installed: `KEYV = 0`, and the bits of `KEY` are unspecified (R190, U4), so they are a fresh free value
(log entry 2). -/
def clearKey (s : State) : State := { s with key := Config.freeKey s.draws, keyv := false, draws := s.draws + 1 }

end Sys2Proof.Machine
end

