-- ==== Sys2Proof/Machine/Operands.lean ====
section
/-! DEFINITION. The bit-vector utilities (40_bitvector.md) and the reading of operands: a data byte as a block (R68), the key
register as a bit sequence (R22), a key string as a key (R69). -/

namespace Sys2Proof.Machine

/-- `leftHalf` (R90); an odd length is refused (U1). -/
def leftHalf (seq : Bits) : Except Stop Bits :=
  if seq.length % 2 = 0 then .ok (seq.take (seq.length / 2)) else .error (.refuse .oddLengthHalf)

/-- `rightHalf` (R91); an odd length is refused (U1). -/
def rightHalf (seq : Bits) : Except Stop Bits :=
  if seq.length % 2 = 0 then .ok (seq.drop (seq.length / 2)) else .error (.refuse .oddLengthHalf)

/-- `xor` (R92). -/
def xorBits (a b : Bits) : Except Stop Bits :=
  if a.length = b.length then .ok (List.zipWith Bool.xor a b) else .error (.raise .lengthMismatch)

/-- `concat` (R93). -/
def concat (a b : Bits) : Bits := a ++ b

/-- The number a bit sequence denotes, first position most significant (R12). -/
def bitsToNat (bits : Bits) : Nat := bits.foldl (fun v b => 2 * v + b.toNat) 0

/-- `bitsToByte` (R94); more than 8 bits are refused (U2). -/
def bitsToByte (bits : Bits) : Except Stop Byte :=
  if bits.length ≤ 8 then .ok (BitVec.ofNat 8 (bitsToNat bits)) else .error (.refuse .moreThanEightBits)

/-- `byteToBits` (R95): the low `size` bits, most significant of them first; a size above 8 is refused (U3). -/
def byteToBits (b : Byte) (size : Nat) : Except Stop Bits :=
  if size ≤ 8 then .ok ((List.range size).map fun i => b.getLsbD (size - 1 - i)) else .error (.refuse .sizeAboveEight)

/-- The key register as the bit sequence `KEY[0..9]` (R22). -/
def bitsOfKey (k : Key) : Bits := (List.range keyBits).map k.getMsbD

/-- The key of a key string: bit `i` is 1 where character `i` is `CHAR_ONE`, else 0 (R69). -/
def keyOfString (c : Config) (payload : List Byte) : Key := BitVec.ofNat keyBits (bitsToNat (payload.map (· == c.charOne)))

/-- A valid key string: exactly 10 characters, each `CHAR_ZERO` or `CHAR_ONE` (R190). -/
def validKeyString (c : Config) (payload : List Byte) : Bool :=
  payload.length == keystrLen && payload.all fun b => b == c.charZero || b == c.charOne

end Sys2Proof.Machine
end

