-- ==== Sys2Proof/Machine/Ops.lean ====
section
/-! DEFINITION. The named operations over the state: the response (R66), ending a command with an error (R220, R231), and the one
body the four data commands share. -/

namespace Sys2Proof.Machine

/-- The status code of an error kind (R221). -/
def ErrorKind.code : ErrorKind → Byte
  | .invalidKeyFormat => 0x01
  | .lengthMismatch => 0x02
  | .indexOutOfRange => 0x03
  | .invalidSBoxInput => 0x04
  | .keyNotSet => 0x05
  | .illegalCommand => 0x06

/-- The status code of success (R221). -/
def codeOK : Byte := 0x00

/-- The bytes of a response frame: `STATUS`, `RLEN`, then the result bytes (R66). -/
def responseFrame (status : Byte) (result : List Byte) : List Byte :=
  status :: BitVec.ofNat 8 result.length :: result

/-- The response frame of a success. -/
def okFrame (result : List Byte) : List Byte := responseFrame codeOK result

/-- The response frame of an error: the code alone, `RLEN = 0` (R66, R220). -/
def errFrame (e : ErrorKind) : List Byte := responseFrame e.code []

/-- A response frame handed to the response channel, behind what is still pending there (R62, log entry 15). -/
def emit (s : State) (frame : List Byte) : State := { s with tx := s.tx ++ frame }

/-- A command ends in success (R66). -/
def respondOK (s : State) (result : List Byte) : State := emit s (okFrame result)

/-- A command ends with an error, this hardware's taking of an exception (R231): the response carries the code with `RLEN = 0`;
nothing is saved, no mode changes, control goes nowhere. There is no return from it (R232). -/
def raiseError (s : State) (e : ErrorKind) : State := emit s (errFrame e)

/-- The key as the key schedule reads it (R24). -/
def readKey (s : State) : Bits := bitsOfKey s.key

/-- What a command answers when an internal function gave no result: its error kind is raised (R228), a refused operand refuses. -/
def stopCommand (s : State) : Stop → Host.Outcome State Fault Refusal
  | .raise e => .next (raiseError s e)
  | .refuse r => .refused r

/-- The body of ENCB, DECB, ENCM and DECM (R191 to R194): the key check comes first (R230), then the result of `f` on the key is
the response. State is not written but for the response. -/
def dataCommand (s : State) (f : Bits → Except Stop (List Byte)) : Host.Outcome State Fault Refusal :=
  if keyInstalled s then
    match f (readKey s) with
    | .ok result => .next (respondOK s result)
    | .error stop => stopCommand s stop
  else .next (raiseError s .keyNotSet)

/-- The status and the result bytes at the head of a response stream, and what follows (R66); none where a byte is missing. -/
def cutResponse : List Byte → Option ((Byte × List Byte) × List Byte)
  | status :: rlen :: rest =>
    if rlen.toNat ≤ rest.length then some ((status, rest.take rlen.toNat), rest.drop rlen.toNat) else none
  | _ => none

end Sys2Proof.Machine
end

