-- ==== Sys2Proof/Machine/Channel.lean ====
section
/-! DEFINITION. The byte level of the interface (R60 to R62, R64) and the reset input (R260, R262). -/

namespace Sys2Proof.Machine

/-- A whole command frame has been received: the engine executes it before it takes another byte (R62). -/
def frameComplete (s : State) : Bool := (cutFrame s.rx).isSome

/-- `rsp_valid`: a response byte is offered (R60, R62). -/
def State.rspValid (s : State) : Bool := !s.tx.isEmpty

/-- `rsp_data`: the byte offered, where one is. -/
def State.rspData? (s : State) : Option Byte := s.tx.head?

/-- `cmd_ready`: a command byte can be taken only after the last byte of the previous response has crossed (R62). -/
def State.cmdReady (s : State) : Bool := s.tx.isEmpty && !frameComplete s

/-- One byte crosses the command channel (R61). -/
def takeCommandByte (s : State) (b : Byte) : State := { s with rx := s.rx ++ [b], cmdStream := s.cmdStream ++ [b] }

/-- One byte crosses the response channel (R61): the first of those not yet sent. -/
def sendResponseByte (s : State) : State :=
  match s.tx with
  | [] => s
  | b :: rest => { s with tx := rest, rspStream := s.rspStream ++ [b] }

/-- `rst` (R260, R262): no key installed and `KEY` unspecified (a fresh free value), the partial frame and the pending response
dropped, and a new run begins. -/
def assertReset (s : State) : State := State.fresh (Config.freeKey s.draws) (s.draws + 1) s.host

/-- The command channel at one moment: the offered byte crosses when the engine is ready (R61). -/
def commandChannel (m : Moment) (s : State) : State :=
  match m.cmd with
  | some b => if s.cmdReady then takeCommandByte s b else s
  | none => s

/-- The response channel at one moment: a byte crosses when one is offered and the host is ready (R61). -/
def responseChannel (m : Moment) (s : State) : State :=
  if s.rspValid && m.rspReady then sendResponseByte s else s

/-- One moment of the interface. `rst` overrides what the channels would do (log entry 10). The engine never has both channels
active, since `cmd_ready` needs `tx` empty (R62). -/
def interfaceMoment (m : Moment) (s : State) : State :=
  if m.rst then assertReset s
  else if s.rspValid then responseChannel m s
  else commandChannel m s

/-- The engine waits on its host: one moment of the host's list passes; where the list has ended, the engine is stuck (R64, R269). -/
def waitForHost (s : State) : Host.Outcome State Fault Refusal :=
  match s.host with
  | [] => .fault (if s.rspValid then .stuckAwaitingHost else .stuckAwaitingCommand)
  | m :: rest => .next (interfaceMoment m { s with host := rest })

/-- The received bytes after a frame has been taken for execution. -/
def dropFrame (s : State) (rest : List Byte) : State := { s with rx := rest }

end Sys2Proof.Machine
end

