-- ==== Sys2Proof/Machine/Tables.lean ====
section
/-! DEFINITION. The constant tables (R41) and the parameters of this engine (R9, R10). -/

namespace Sys2Proof.Machine

/-- `IP` (R112). -/
def tableIP : List Int := [1, 5, 2, 0, 3, 7, 4, 6]

/-- `IP_INVERSE` (R113). -/
def tableIPInverse : List Int := [3, 0, 2, 4, 6, 1, 7, 5]

/-- `EP` (R114). -/
def tableEP : List Int := [3, 0, 1, 2, 1, 2, 3, 0]

/-- `P4` (R115). -/
def tableP4 : List Int := [1, 3, 2, 0]

/-- `K1SEL` (R116). -/
def tableK1SEL : List Int := [0, 6, 8, 3, 7, 2, 9, 5]

/-- `K2SEL` (R117). -/
def tableK2SEL : List Int := [7, 2, 5, 4, 9, 1, 8, 0]

/-- The default of `SBOX0` (R133). PRESUMED (log entry 4): the spec supplies it from general knowledge. -/
def defaultSBox0 : SBoxTable := #v[#v[1, 0, 3, 2], #v[3, 2, 1, 0], #v[0, 2, 1, 3], #v[3, 1, 3, 2]]

/-- The default of `SBOX1` (R134). PRESUMED (log entry 4). -/
def defaultSBox1 : SBoxTable := #v[#v[0, 1, 2, 3], #v[2, 0, 1, 3], #v[3, 0, 1, 0], #v[2, 1, 0, 3]]

/-- The parameters of the engine that `exec` runs: every one at the spec's default (log entries 4, 5 and 6). -/
def engine : Config where
  sbox0 := defaultSBox0
  sbox1 := defaultSBox1
  charZero := 0x30
  charOne := 0x31
  failedLoadClearsKey := true

end Sys2Proof.Machine
end

