-- ==== Sys2Proof/Machine/Permutation.lean ====
section
/-! DEFINITION. The permutation/expansion unit (41_permutation.md). -/

namespace Sys2Proof.Machine

/-- The bit of a sequence at a table entry; an entry that is no position of it raises `IndexOutOfRange` (R110). -/
def readAt (input : Bits) (entry : Int) : Except Stop Bool :=
  if entry < 0 then .error (.raise .indexOutOfRange)
  else
    match input[entry.toNat]? with
    | some b => .ok b
    | none => .error (.raise .indexOutOfRange)

/-- `applyTable` (R110): output bit `i` is the input bit at entry `i`. -/
def applyTable (input : Bits) : List Int → Except Stop Bits
  | [] => .ok []
  | entry :: rest => do
    let b ← readAt input entry
    let bs ← applyTable input rest
    .ok (b :: bs)

end Sys2Proof.Machine
end

