-- ==== Sys2Proof/Machine/KeySchedule.lean ====
section
/-! DEFINITION. The key scheduler (45_key_schedule.md): two direct selections, no rotation (R162). -/

namespace Sys2Proof.Machine

/-- `subkey1(K)` (R160). -/
def subkey1 (key : Bits) : Except Stop Bits := applyTable key tableK1SEL

/-- `subkey2(K)` (R161). -/
def subkey2 (key : Bits) : Except Stop Bits := applyTable key tableK2SEL

end Sys2Proof.Machine
end

