-- ==== Sys2Proof/Machine/SBox.lean ====
section
/-! DEFINITION. The S-box lookup array (42_sbox.md). -/

namespace Sys2Proof.Machine

/-- The 2-bit number with `hi` its more significant bit, as an index 0..3 (R130). -/
def twoBitIndex (hi lo : Bool) : Fin 4 := ⟨2 * hi.toNat + lo.toNat, by cases hi <;> cases lo <;> decide⟩

/-- `Sbox` (R130, R131): the outer two bits choose the row, the inner two the column, and the value becomes two bits, the more
significant first (R132). -/
def sboxLookup (table : SBoxTable) : Bits → Except Stop Bits
  | [x0, x1, x2, x3] => byteToBits ((table[twoBitIndex x0 x3][twoBitIndex x1 x2]).setWidth 8) 2
  | _ => .error (.raise .invalidSBoxInput)

/-- `S0` (R130). -/
def sbox0 (c : Config) (x : Bits) : Except Stop Bits := sboxLookup c.sbox0 x

/-- `S1` (R130). -/
def sbox1 (c : Config) (x : Bits) : Except Stop Bits := sboxLookup c.sbox1 x

end Sys2Proof.Machine
end

