-- ==== Sys2Proof/Machine/Feistel.lean ====
section
/-! DEFINITION. The Feistel function (43_feistel.md). -/

namespace Sys2Proof.Machine

/-- `Feistel(k, x)` (R140), with the whole 8-bit subkey (R141). -/
def feistel (c : Config) (k x : Bits) : Except Stop Bits := do
  let e ← applyTable x tableEP
  let m ← xorBits k e
  let ml ← leftHalf m
  let mr ← rightHalf m
  let s0out ← sbox0 c ml
  let s1out ← sbox1 c mr
  applyTable (concat s0out s1out) tableP4

end Sys2Proof.Machine
end

