-- ==== Sys2Proof/Machine/Round.lean ====
section
/-! DEFINITION. The round function and the half-swap (44_round.md). -/

namespace Sys2Proof.Machine

/-- `round(x, k)` (R150); it never swaps the halves (R152). -/
def roundBlock (c : Config) (x k : Bits) : Except Stop Bits := do
  let r ← rightHalf x
  let f ← feistel c k r
  let l ← leftHalf x
  let newLeft ← xorBits l f
  .ok (concat newLeft r)

/-- `swap(t)`, the half-swap (R151). -/
def swapHalves (t : Bits) : Except Stop Bits := do
  let r ← rightHalf t
  let l ← leftHalf t
  .ok (concat r l)

end Sys2Proof.Machine
end

