-- ==== Sys2Proof/Machine/BlockCipher.lean ====
section
/-! DEFINITION. The block pipeline (46_block_cipher.md). -/

namespace Sys2Proof.Machine

/-- The pipeline both directions share (R177): IP, a round, the half-swap, a round, IP_INVERSE, with the subkeys in the order
they are used. -/
def blockPipeline (c : Config) (block first second : Bits) : Except Stop Bits := do
  let t ← applyTable block tableIP
  let t ← roundBlock c t first
  let t ← swapHalves t
  let t ← roundBlock c t second
  applyTable t tableIPInverse

/-- `encryptBlock(block, k1, k2)` (R170). -/
def encryptBlock (c : Config) (block k1 k2 : Bits) : Except Stop Bits := blockPipeline c block k1 k2

/-- `decryptBlock(block, k1, k2)` (R171): the subkey order is reversed. -/
def decryptBlock (c : Config) (block k1 k2 : Bits) : Except Stop Bits := blockPipeline c block k2 k1

end Sys2Proof.Machine
end

