-- ==== Sys2Proof/Machine/MessageCodec.lean ====
section
/-! DEFINITION. The message codec (47_message_codec.md): bytes through the block cipher, one by one, no chaining. -/

namespace Sys2Proof.Machine

/-- A block function applied to one byte (R180, R184): the byte becomes a block, most significant bit first, and the block a byte
(R68). -/
def codeByte (f : Bits → Except Stop Bits) (b : Byte) : Except Stop Byte := do
  let block ← byteToBits b blockBits
  let t ← f block
  bitsToByte t

/-- The bytes of a message one after another, first byte first (R180, R182). -/
def codeBytes (f : Bits → Except Stop Bits) : List Byte → Except Stop (List Byte)
  | [] => .ok []
  | b :: bs => do
    let r ← codeByte f b
    let rs ← codeBytes f bs
    .ok (r :: rs)

/-- `encryptBytes(bytes, K)` (R180); the subkeys are derived once (R183). -/
def encryptBytes (c : Config) (bytes : List Byte) (key : Bits) : Except Stop (List Byte) := do
  let k1 ← subkey1 key
  let k2 ← subkey2 key
  codeBytes (fun block => encryptBlock c block k1 k2) bytes

/-- `decryptBytes(bytes, K)` (R181). -/
def decryptBytes (c : Config) (bytes : List Byte) (key : Bits) : Except Stop (List Byte) := do
  let k1 ← subkey1 key
  let k2 ← subkey2 key
  codeBytes (fun block => decryptBlock c block k1 k2) bytes

/-- `encryptByte(b, K)` (R184). -/
def encryptByte (c : Config) (b : Byte) (key : Bits) : Except Stop Byte := do
  let k1 ← subkey1 key
  let k2 ← subkey2 key
  codeByte (fun block => encryptBlock c block k1 k2) b

/-- `decryptByte(b, K)` (R184). -/
def decryptByte (c : Config) (b : Byte) (key : Bits) : Except Stop Byte := do
  let k1 ← subkey1 key
  let k2 ← subkey2 key
  codeByte (fun block => decryptBlock c block k1 k2) b

end Sys2Proof.Machine
end

