-- ==== Sys2Proof/Machine/ByteCommands.lean ====
section
/-! DEFINITION. The single-byte commands ENCB and DECB (48_commands.md R191, R192). -/

namespace Sys2Proof.Machine

/-- ENCB on an engine with parameters `c` (R191). -/
def encbWith (c : Config) (d : Byte) (s : State) : Host.Outcome State Fault Refusal :=
  dataCommand s fun key => do
    let r ← encryptByte c d key
    .ok [r]

/-- DECB on an engine with parameters `c` (R192). -/
def decbWith (c : Config) (d : Byte) (s : State) : Host.Outcome State Fault Refusal :=
  dataCommand s fun key => do
    let r ← decryptByte c d key
    .ok [r]

/-- ENCB (R191). -/
def execEncb (d : Byte) (s : State) : Host.Outcome State Fault Refusal := encbWith engine d s

/-- DECB (R192). -/
def execDecb (d : Byte) (s : State) : Host.Outcome State Fault Refusal := decbWith engine d s

end Sys2Proof.Machine
end

