-- ==== Sys2Proof/Machine/KeyCommands.lean ====
section
/-! DEFINITION. LOADKEY (48_commands.md R190), the only command that writes `KEY` and `KEYV` (R196). -/

namespace Sys2Proof.Machine

/-- What a failed load does to the key (D8, U9): by default no key is installed afterwards. -/
def failedLoad (c : Config) (s : State) : State := if c.failedLoadClearsKey then clearKey s else s

/-- LOADKEY on an engine with parameters `c` (R190). -/
def loadkeyWith (c : Config) (payload : List Byte) (s : State) : Host.Outcome State Fault Refusal :=
  if validKeyString c payload then .next (respondOK (installKey s (keyOfString c payload)) [])
  else .next (raiseError (failedLoad c s) .invalidKeyFormat)

/-- LOADKEY (R190). -/
def execLoadkey (payload : List Byte) (s : State) : Host.Outcome State Fault Refusal := loadkeyWith engine payload s

end Sys2Proof.Machine
end

