-- ==== Sys2Proof/Machine/MessageCommands.lean ====
section
/-! DEFINITION. The message commands ENCM and DECM (48_commands.md R193, R194). -/

namespace Sys2Proof.Machine

/-- ENCM on an engine with parameters `c` (R193). -/
def encmWith (c : Config) (payload : List Byte) (s : State) : Host.Outcome State Fault Refusal :=
  dataCommand s (encryptBytes c payload)

/-- DECM on an engine with parameters `c` (R194). -/
def decmWith (c : Config) (payload : List Byte) (s : State) : Host.Outcome State Fault Refusal :=
  dataCommand s (decryptBytes c payload)

/-- ENCM (R193). -/
def execEncm (payload : List Byte) (s : State) : Host.Outcome State Fault Refusal := encmWith engine payload s

/-- DECM (R194). -/
def execDecm (payload : List Byte) (s : State) : Host.Outcome State Fault Refusal := decmWith engine payload s

end Sys2Proof.Machine
end

