-- ==== Sys2Proof/Machine/Dispatch.lean ====
section
/-! DEFINITION. One arm per command, each a direct call of its meaning. -/

namespace Sys2Proof.Machine

-- The five rows of spec/opcode_table.json, in its order.
def exec (i : Instr) (s : State) : Host.Outcome State Fault Refusal :=
  match i with
  | .loadkey payload => Sys2Proof.Machine.execLoadkey payload s
  | .encb d => Sys2Proof.Machine.execEncb d s
  | .decb d => Sys2Proof.Machine.execDecb d s
  | .encm payload => Sys2Proof.Machine.execEncm payload s
  | .decm payload => Sys2Proof.Machine.execDecm payload s

end Sys2Proof.Machine
end

