-- ==== Sys2Proof/Machine/Transaction.lean ====
section
/-! DEFINITION. The transaction level (R63, R195): one whole command frame, one response; and a run of frames (R270). -/

namespace Sys2Proof.Machine

/-- One command frame executed (R195): the frame check comes first and answers `IllegalCommand` with nothing changed; otherwise
the command. The response is the frame it appends to `tx`. -/
def transact (f : Frame) (s : State) : Host.Outcome State Fault Refusal :=
  match decodeFrame f with
  | .ok i => exec i s
  | .error _ => .next (raiseError s .illegalCommand)

/-- A run of command frames, in order (R49, R270); the responses gather in `tx`, one per frame. -/
def runFrames : List Frame → State → Host.Outcome State Fault Refusal
  | [], s => .next s
  | f :: fs, s =>
    match transact f s with
    | .next t => runFrames fs t
    | .fault r => .fault r
    | .refused r => .refused r

end Sys2Proof.Machine
end

