-- ==== Sys2Proof/Machine/Step.lean ====
section
/-! DEFINITION. One step of the machine, and the placing of a frame where the next step takes it. -/

namespace Sys2Proof.Machine

/-- One step. While a response is leaving, a moment of the interface passes. Otherwise a complete frame is executed, atomically
and without a moment passing (R62, log entry 8); an incomplete one waits for a moment to bring a byte. -/
def step (s : State) : Host.Outcome State Fault Refusal :=
  match s.tx with
  | _ :: _ => waitForHost s
  | [] =>
    match cutFrame s.rx with
    | none => waitForHost s
    | some (f, rest) => transact f (dropFrame s rest)

/-- `s` with the frame of a table word received and no response pending, so that the next step executes it (log entry 12). -/
def State.withFetchWord (s : State) (nbits w : Nat) : State := { s with rx := tableFrameBytes nbits w, tx := [] }

end Sys2Proof.Machine
end

