-- ==== Sys2Proof/Machine/Assembler.lean ====
section
/-! DEFINITION. The text of a command stream (R73), the pseudo-instructions (R74) and the text of a response: host software that the
spec describes; the engine never sees it. What R73 and R74 leave open in the text is log entry 16. -/

namespace Sys2Proof.Machine

/-- Why a line is refused by the assembler. -/
inductive AsmError where
  /-- A string that no second quotation mark ends. -/
  | unclosedString
  /-- The line's first word is none of the eight mnemonics. -/
  | unknownMnemonic
  /-- An operand that is no number, or a number above 255. -/
  | badNumber
  /-- Operands of another shape than the mnemonic's form. -/
  | badOperands
  /-- A character of a key string whose code does not fit 8 bits (U10). -/
  | wideCharacter
  /-- More than 255 operand bytes (R73). -/
  | tooLong
  deriving DecidableEq, Repr

/-- A piece of a line. -/
inductive Token where
  | word (chars : List Char)
  | text (chars : List Char)
  | comma
  deriving DecidableEq, Repr

/-- Where the reader of a line stands; the characters read so far are kept last first. -/
inductive LexMode where
  | gap
  | word (acc : List Char)
  | text (acc : List Char)
  deriving DecidableEq, Repr

/-- The double quote, which stands around a string (R73). -/
def quoteChar : Char := Char.ofNat 0x22

/-- A blank between the pieces of a line. -/
def isBlank (ch : Char) : Bool := ch == ' ' || ch == Char.ofNat 9 || ch == Char.ofNat 13

/-- The pieces of a line; a semicolon outside a string starts a comment (R73). None where a string is not ended. -/
def lexLine : List Char → LexMode → Option (List Token)
  | [], .gap => some []
  | [], .word acc => some [.word acc.reverse]
  | [], .text _ => none
  | ch :: cs, .gap =>
    if ch = ';' then some []
    else if isBlank ch then lexLine cs .gap
    else if ch = ',' then (lexLine cs .gap).map fun ts => .comma :: ts
    else if ch = quoteChar then lexLine cs (.text [])
    else lexLine cs (.word [ch])
  | ch :: cs, .word acc =>
    if ch = ';' then some [.word acc.reverse]
    else if isBlank ch then (lexLine cs .gap).map fun ts => .word acc.reverse :: ts
    else if ch = ',' then (lexLine cs .gap).map fun ts => .word acc.reverse :: .comma :: ts
    else if ch = quoteChar then (lexLine cs (.text [])).map fun ts => .word acc.reverse :: ts
    else lexLine cs (.word (ch :: acc))
  | ch :: cs, .text acc =>
    if ch = quoteChar then (lexLine cs .gap).map fun ts => .text acc.reverse :: ts
    else lexLine cs (.text (ch :: acc))

/-- The value of one digit character. -/
def digitValue (ch : Char) : Nat :=
  let n := ch.toNat
  if 48 ≤ n ∧ n ≤ 57 then n - 48
  else if 65 ≤ n ∧ n ≤ 70 then n - 55
  else if 97 ≤ n ∧ n ≤ 102 then n - 87
  else 16

/-- Digits of a base, most significant first. -/
def readDigits (base : Nat) : List Char → Nat → Option Nat
  | [], v => some v
  | ch :: cs, v => if digitValue ch < base then readDigits base cs (base * v + digitValue ch) else none

/-- Digits of a base, at least one of them. -/
def readNumber (base : Nat) : List Char → Option Nat
  | [] => none
  | ch :: cs => readDigits base (ch :: cs) 0

/-- A number: hexadecimal with prefix `0x`, binary with prefix `0b`, or decimal (R73). -/
def parseNumber : List Char → Option Nat
  | '0' :: 'x' :: ds => readNumber 16 ds
  | '0' :: 'b' :: ds => readNumber 2 ds
  | ds => readNumber 10 ds

/-- A number as an operand byte. -/
def parseByte (w : List Char) : Except AsmError Byte :=
  match parseNumber w with
  | some n => if n ≤ 255 then .ok (BitVec.ofNat 8 n) else .error .badNumber
  | none => .error .badNumber

/-- A byte list: numbers separated by commas (R73); no operand at all is the empty list. -/
def parseByteList : List Token → Except AsmError (List Byte)
  | [] => .ok []
  | [.word w] => do
    let b ← parseByte w
    .ok [b]
  | .word w :: .comma :: rest => do
    let b ← parseByte w
    let bs ← if rest.isEmpty then .error .badOperands else parseByteList rest
    .ok (b :: bs)
  | _ => .error .badOperands

/-- The code of a character of a key string, which must fit 8 bits (U10). -/
def characterCode (ch : Char) : Except AsmError Byte :=
  if ch.toNat ≤ 255 then .ok (BitVec.ofNat 8 ch.toNat) else .error .wideCharacter

/-- The codes of a key string. -/
def characterCodes : List Char → Except AsmError (List Byte)
  | [] => .ok []
  | ch :: cs => do
    let b ← characterCode ch
    let bs ← characterCodes cs
    .ok (b :: bs)

/-- The bytes of an ENCS text: each character's code point truncated to its low 8 bits (R74). -/
def truncatedCodes (text : List Char) : List Byte := text.map fun ch => BitVec.ofNat 8 ch.toNat

/-- One frame, refused when the operand list is longer than 255 bytes (R73). -/
def oneFrame (op : Byte) (bytes : List Byte) : Except AsmError (List Frame) :=
  if bytes.length ≤ lenMax then .ok [⟨op, bytes⟩] else .error .tooLong

/-- A message in pieces of 255 bytes and a last one of the remainder (R74); `fuel` bounds the number of pieces. -/
def splitMessage : Nat → List Byte → List (List Byte)
  | 0, p => [p]
  | fuel + 1, p => if p.length ≤ lenMax then [p] else p.take lenMax :: splitMessage fuel (p.drop lenMax)

/-- ENCML and DECML: consecutive frames of one opcode (R74). -/
def longMessage (op : Byte) (bytes : List Byte) : List Frame :=
  (splitMessage bytes.length bytes).map fun p => ⟨op, p⟩

/-- The frames of a mnemonic and its operands (R73, R74). -/
def assembleTokens (mnemonic : List Char) (operands : List Token) : Except AsmError (List Frame) :=
  if mnemonic = "LOADKEY".toList then
    match operands with
    | [.text t] => do
      let codes ← characterCodes t
      oneFrame opLoadkey codes
    | _ => do
      let bytes ← parseByteList operands
      oneFrame opLoadkey bytes
  else if mnemonic = "ENCS".toList then
    match operands with
    | [.text t] => oneFrame opEncm (truncatedCodes t)
    | _ => .error .badOperands
  else if mnemonic = "ENCB".toList then do
    let bytes ← parseByteList operands
    oneFrame opEncb bytes
  else if mnemonic = "DECB".toList then do
    let bytes ← parseByteList operands
    oneFrame opDecb bytes
  else if mnemonic = "ENCM".toList then do
    let bytes ← parseByteList operands
    oneFrame opEncm bytes
  else if mnemonic = "DECM".toList then do
    let bytes ← parseByteList operands
    oneFrame opDecm bytes
  else if mnemonic = "ENCML".toList then do
    let bytes ← parseByteList operands
    .ok (longMessage opEncm bytes)
  else if mnemonic = "DECML".toList then do
    let bytes ← parseByteList operands
    .ok (longMessage opDecm bytes)
  else .error .unknownMnemonic

/-- The frames of one line; an empty line or a comment gives none (R73). -/
def assembleLine (line : List Char) : Except AsmError (List Frame) :=
  match lexLine line .gap with
  | none => .error .unclosedString
  | some [] => .ok []
  | some (.word m :: operands) => assembleTokens m operands
  | some _ => .error .unknownMnemonic

/-- The frames of a command stream written one command a line (R73). -/
def assemble : List (List Char) → Except AsmError (List Frame)
  | [] => .ok []
  | line :: lines => do
    let fs ← assembleLine line
    let gs ← assemble lines
    .ok (fs ++ gs)

/-- The name of an error kind (R221). -/
def ErrorKind.name : ErrorKind → String
  | .invalidKeyFormat => "InvalidKeyFormat"
  | .lengthMismatch => "LengthMismatch"
  | .indexOutOfRange => "IndexOutOfRange"
  | .invalidSBoxInput => "InvalidSBoxInput"
  | .keyNotSet => "KeyNotSet"
  | .illegalCommand => "IllegalCommand"

/-- The error kind of a status code; none for `OK` and for the codes that are never sent (R221, U8). -/
def errorOfCode (status : Byte) : Option ErrorKind :=
  [ErrorKind.invalidKeyFormat, .lengthMismatch, .indexOutOfRange, .invalidSBoxInput, .keyNotSet, .illegalCommand].find?
    fun e => e.code == status

/-- A hexadecimal digit. -/
def hexDigit (n : Nat) : Char := if n < 10 then Char.ofNat (48 + n) else Char.ofNat (55 + n)

/-- A byte as the spec writes it, for example `0xCE`. -/
def byteText (b : Byte) : List Char := ['0', 'x', hexDigit (b.toNat / 16), hexDigit (b.toNat % 16)]

/-- The result bytes of a response, each with what stands before it. -/
def resultText : List Byte → List Char
  | [] => []
  | [b] => ' ' :: byteText b
  | b :: bs => (' ' :: byteText b) ++ (',' :: resultText bs)

/-- The text of a response: `OK` followed by its result bytes, or `ERR` followed by the name of the error kind (R73); none where the
engine never sends such a response (U8). -/
def responseText (status : Byte) (result : List Byte) : Option (List Char) :=
  if status = codeOK then some ("OK".toList ++ resultText result)
  else
    match errorOfCode status with
    | some e => if result.isEmpty then some ("ERR ".toList ++ e.name.toList) else none
    | none => none

end Sys2Proof.Machine
end

