-- ==== Sys2Proof/Safety.lean ====
section
/-! DEFINITION. What claims call a safe step, a well-formed channel, states the host cannot tell apart, and streams that agree with
the transaction level. -/

namespace Sys2Proof

open Sys2Proof.Machine

/-- A step that refuses nothing and stops only where the host's list of moments has ended (R64, R269). -/
def SafeStep (s : State) : Prop :=
  match step s with
  | .next _ => True
  | .fault _ => s.host = []
  | .refused _ => False

/-- The channels of a state that a run can reach: no command byte is held while a response is leaving (R62), never more than one
frame is held (R65), and never more than one response is pending (R62, R66). -/
def ChannelInv (s : State) : Prop :=
  (s.tx = [] ∨ s.rx = []) ∧ (∀ f rest, cutFrame s.rx = some (f, rest) → rest = []) ∧ s.tx.length ≤ lenMax + 2

/-- States that differ at most in the bits of `KEY` while no key is installed, and in the model's own count of draws: what R24 says
the host cannot tell apart. -/
def Indistinguishable (s t : State) : Prop :=
  s.keyv = t.keyv ∧ (s.keyv = true → s.key = t.key) ∧ s.rx = t.rx ∧ s.tx = t.tx ∧ s.cmdStream = t.cmdStream ∧
    s.rspStream = t.rspStream ∧ s.host = t.host

/-- Two outcomes the host cannot tell apart: the same kind of outcome, the same stop, or next states it cannot tell apart. -/
def SameToHost (o p : Host.Outcome State Fault Refusal) : Prop :=
  match o, p with
  | .next s, .next t => Indistinguishable s t
  | .fault a, .fault b => a = b
  | .refused a, .refused b => a = b
  | _, _ => False

/-- The streams of a byte-level run are those of the transaction level (R62, R63): the command stream is the frames of some run
followed by the unfinished frame, the response stream and what is still to be sent are that run's responses, and the
registers are where that run leaves them. The run begins with no key installed, whatever bits `KEY` then holds. -/
def StreamsAgree (s : State) : Prop :=
  ∃ (key : Key) (draws : Nat) (frames : List Frame) (t : State),
    (∀ f ∈ frames, f.payload.length ≤ lenMax) ∧
    runFrames frames (State.fresh key draws []) = .next t ∧
    s.cmdStream = frames.flatMap encodeFrame ++ s.rx ∧
    s.rspStream ++ s.tx = t.tx ∧
    s.key = t.key ∧ s.keyv = t.keyv ∧ s.draws = t.draws

end Sys2Proof
end

