-- ==== Sys2Proof/Certificates/Slice0/Obligations.lean ====
section
/-! DEFINITION. The statements for the provers, from the numbered rules of spec/. -/

open Sys2Proof Sys2Proof.Machine

/-! ### 40_bitvector.md -/

/-- R90. The clause about an odd length is the model's choice (log entry 13, DESIGN CHOICE): R90 and U1 leave it to a model to define the
function on even lengths only or to refuse an odd one. -/
def Obligations.LeftHalfTakesFirstHalf : Prop :=
  ∀ seq : Bits,
    (seq.length % 2 = 0 → ∃ out : Bits, leftHalf seq = .ok out ∧ out.length = seq.length / 2 ∧
      ∀ i, i < seq.length / 2 → out[i]? = seq[i]?) ∧
    (seq.length % 2 = 1 → leftHalf seq = .error (.refuse .oddLengthHalf))

/-- R91, with its [derived] concatenation law. The clause about an odd length is the model's choice (log entry 13, DESIGN CHOICE), as for
`leftHalf`. -/
def Obligations.RightHalfTakesSecondHalf : Prop :=
  ∀ seq : Bits,
    (seq.length % 2 = 0 → ∃ l r : Bits, leftHalf seq = .ok l ∧ rightHalf seq = .ok r ∧ r.length = seq.length / 2 ∧
      (∀ i, i < seq.length / 2 → r[i]? = seq[seq.length / 2 + i]?) ∧ concat l r = seq) ∧
    (seq.length % 2 = 1 → rightHalf seq = .error (.refuse .oddLengthHalf))

/-- R92. -/
def Obligations.XorIsElementwiseOnEqualLengths : Prop :=
  ∀ a b : Bits,
    (a.length = b.length →
      (∃ out : Bits, xorBits a b = .ok out ∧ out.length = a.length ∧
        ∀ (i : Nat) (x y : Bool), a[i]? = some x → b[i]? = some y → out[i]? = some (x ^^ y)) ∧
      (xorBits a b >>= fun t => xorBits t b) = .ok a ∧
      xorBits a b = xorBits b a ∧
      xorBits a a = .ok (List.replicate a.length false)) ∧
    (a.length ≠ b.length → xorBits a b = .error (.raise .lengthMismatch))

/-- R93. -/
def Obligations.ConcatAppends : Prop :=
  ∀ a b : Bits,
    (concat a b).length = a.length + b.length ∧
    (∀ i, i < a.length → (concat a b)[i]? = a[i]?) ∧
    (∀ j, j < b.length → (concat a b)[a.length + j]? = b[j]?)

/-- R94, which also says to refuse more than 8 bits (U2); only the name of that refusal is the model's (log entry 13). -/
def Obligations.BitsToByteReadsBigEndian : Prop :=
  ∀ bits : Bits,
    (bits.length ≤ 8 → ∃ v : Byte, bitsToByte bits = .ok v ∧
      v.toNat = ∑ i : Fin bits.length, bits[i].toNat * 2 ^ (bits.length - 1 - i.val)) ∧
    (8 < bits.length → bitsToByte bits = .error (.refuse .moreThanEightBits))

/-- R95, with its [derived] round trips. The clause about a size above 8 is the model's choice (log entry 13, DESIGN CHOICE): R95 lets a
model refuse or fill with 0. -/
def Obligations.ByteToBitsReadsLowBits : Prop :=
  ∀ (b : Byte) (size : Nat),
    (size ≤ 8 → ∃ out : Bits, byteToBits b size = .ok out ∧ out.length = size ∧
      ∀ i, i < size → out[i]? = some (b.getLsbD (size - 1 - i))) ∧
    (8 < size → byteToBits b size = .error (.refuse .sizeAboveEight)) ∧
    (byteToBits b 8 >>= bitsToByte) = .ok b ∧
    (∀ s : Bits, s.length = 8 → (bitsToByte s >>= fun v => byteToBits v 8) = .ok s)

/-! ### 41_permutation.md -/

/-- R110. -/
def Obligations.ApplyTableSelectsPositions : Prop :=
  ∀ (input : Bits) (table : List Int),
    ((∀ t ∈ table, 0 ≤ t ∧ t < input.length) →
      ∃ out : Bits, applyTable input table = .ok out ∧ out.length = table.length ∧
        ∀ (i : Nat) (t : Int), table[i]? = some t → out[i]? = input[t.toNat]?) ∧
    ((∃ t ∈ table, t < 0 ∨ input.length ≤ t) → applyTable input table = .error (.raise .indexOutOfRange)) ∧
    (∀ other : Bits, input.length = other.length →
      (xorBits input other >>= fun x => applyTable x table) =
        (do
          let a ← applyTable input table
          let b ← applyTable other table
          xorBits a b))

/-- R112 to R117 and R160, R161: each table by the wires it connects, and the subkeys by the key bits they select. -/
def Obligations.TablesConnectTheirWires : Prop :=
  (∀ x0 x1 x2 x3 x4 x5 x6 x7 : Bool,
    applyTable [x0, x1, x2, x3, x4, x5, x6, x7] tableIP = .ok [x1, x5, x2, x0, x3, x7, x4, x6] ∧
    applyTable [x0, x1, x2, x3, x4, x5, x6, x7] tableIPInverse = .ok [x3, x0, x2, x4, x6, x1, x7, x5]) ∧
  (∀ x0 x1 x2 x3 : Bool,
    applyTable [x0, x1, x2, x3] tableEP = .ok [x3, x0, x1, x2, x1, x2, x3, x0] ∧
    applyTable [x0, x1, x2, x3] tableP4 = .ok [x1, x3, x2, x0]) ∧
  (∀ k0 k1 k2 k3 k4 k5 k6 k7 k8 k9 : Bool,
    applyTable [k0, k1, k2, k3, k4, k5, k6, k7, k8, k9] tableK1SEL = .ok [k0, k6, k8, k3, k7, k2, k9, k5] ∧
    applyTable [k0, k1, k2, k3, k4, k5, k6, k7, k8, k9] tableK2SEL = .ok [k7, k2, k5, k4, k9, k1, k8, k0] ∧
    subkey1 [k0, k1, k2, k3, k4, k5, k6, k7, k8, k9] = .ok [k0, k6, k8, k3, k7, k2, k9, k5] ∧
    subkey2 [k0, k1, k2, k3, k4, k5, k6, k7, k8, k9] = .ok [k7, k2, k5, k4, k9, k1, k8, k0])

/-- R118. -/
def Obligations.NoTableIsOutOfRange : Prop :=
  (∀ x : Bits, x.length = 8 → applyTable x tableIP ≠ .error (.raise .indexOutOfRange) ∧
    applyTable x tableIPInverse ≠ .error (.raise .indexOutOfRange)) ∧
  (∀ x : Bits, x.length = 4 → applyTable x tableEP ≠ .error (.raise .indexOutOfRange) ∧
    applyTable x tableP4 ≠ .error (.raise .indexOutOfRange)) ∧
  (∀ x : Bits, x.length = 10 → applyTable x tableK1SEL ≠ .error (.raise .indexOutOfRange) ∧
    applyTable x tableK2SEL ≠ .error (.raise .indexOutOfRange))

/-- R119. -/
def Obligations.InitialPermutationsAreInverse : Prop :=
  (tableIP.Perm [0, 1, 2, 3, 4, 5, 6, 7] ∧ tableIPInverse.Perm [0, 1, 2, 3, 4, 5, 6, 7] ∧ tableP4.Perm [0, 1, 2, 3]) ∧
  (∀ x : Bits, x.length = 8 →
    (applyTable x tableIP >>= fun t => applyTable t tableIPInverse) = .ok x ∧
    (applyTable x tableIPInverse >>= fun t => applyTable t tableIP) = .ok x) ∧
  (∀ x y : Bits, x.length = 4 → y.length = 4 → applyTable x tableEP = applyTable y tableEP → x = y) ∧
  (∃ z : Bits, z.length = 8 ∧ ∀ x : Bits, applyTable x tableEP ≠ .ok z)

/-! ### 42_sbox.md -/

/-- R130 to R132: for every content of the boxes. -/
def Obligations.SBoxLookupSelectsRowAndColumn : Prop :=
  (∀ (c : Config) (x0 x1 x2 x3 : Bool) (row col : Fin 4),
    row.val = 2 * x0.toNat + x3.toNat → col.val = 2 * x1.toNat + x2.toNat →
      sbox0 c [x0, x1, x2, x3] = .ok [(c.sbox0[row][col]).getLsbD 1, (c.sbox0[row][col]).getLsbD 0] ∧
      sbox1 c [x0, x1, x2, x3] = .ok [(c.sbox1[row][col]).getLsbD 1, (c.sbox1[row][col]).getLsbD 0]) ∧
  (∀ (c : Config) (x : Bits), x.length ≠ 4 →
    sbox0 c x = .error (.raise .invalidSBoxInput) ∧ sbox1 c x = .error (.raise .invalidSBoxInput)) ∧
  (∀ row col : Fin 4, ∃! q : Bool × Bool × Bool × Bool,
    row.val = 2 * q.1.toNat + q.2.2.2.toNat ∧ col.val = 2 * q.2.1.toNat + q.2.2.1.toNat)

/-! ### 43_feistel.md, 44_round.md, 45_key_schedule.md -/

/-- R140, bit by bit, for every content of the boxes: EP and the key mixing feed S0 with `m[0..3]` and S1 with `m[4..7]`, and P4
orders the four bits out. -/
def Obligations.FeistelComputesItsFourSteps : Prop :=
  ∀ (c : Config) (k0 k1 k2 k3 k4 k5 k6 k7 x0 x1 x2 x3 : Bool),
    ∃ q0 q1 q2 q3 : Bool,
      sbox0 c [k0 ^^ x3, k1 ^^ x0, k2 ^^ x1, k3 ^^ x2] = .ok [q0, q1] ∧
      sbox1 c [k4 ^^ x1, k5 ^^ x2, k6 ^^ x3, k7 ^^ x0] = .ok [q2, q3] ∧
      feistel c [k0, k1, k2, k3, k4, k5, k6, k7] [x0, x1, x2, x3] = .ok [q1, q3, q2, q0]

/-- R150. -/
def Obligations.RoundXorsFeistelIntoLeftHalf : Prop :=
  ∀ (c : Config) (l r k : Bits), l.length = 4 → r.length = 4 → k.length = 8 →
    ∃ f newLeft : Bits, feistel c k r = .ok f ∧ f.length = 4 ∧ xorBits l f = .ok newLeft ∧
      roundBlock c (l ++ r) k = .ok (newLeft ++ r)

/-- R151. -/
def Obligations.SwapExchangesHalves : Prop :=
  ∀ l r : Bits, l.length = 4 → r.length = 4 →
    swapHalves (l ++ r) = .ok (r ++ l) ∧ (swapHalves (l ++ r) >>= swapHalves) = .ok (l ++ r)

/-- R153, for every content of the boxes. -/
def Obligations.RoundIsItsOwnInverse : Prop :=
  ∀ (c : Config) (x k : Bits), x.length = 8 → k.length = 8 →
    (roundBlock c x k >>= fun y => roundBlock c y k) = .ok x

/-! ### 46_block_cipher.md, 47_message_codec.md -/

/-- R170 and R171, for every content of the boxes. -/
def Obligations.BlockPipelineRunsFiveSteps : Prop :=
  ∀ (c : Config) (block k1 k2 : Bits), block.length = 8 → k1.length = 8 → k2.length = 8 →
    (∃ t1 t2 t3 t4 out : Bits, applyTable block tableIP = .ok t1 ∧ roundBlock c t1 k1 = .ok t2 ∧
      swapHalves t2 = .ok t3 ∧ roundBlock c t3 k2 = .ok t4 ∧ applyTable t4 tableIPInverse = .ok out ∧
      out.length = 8 ∧ encryptBlock c block k1 k2 = .ok out) ∧
    (∃ t1 t2 t3 t4 out : Bits, applyTable block tableIP = .ok t1 ∧ roundBlock c t1 k2 = .ok t2 ∧
      swapHalves t2 = .ok t3 ∧ roundBlock c t3 k1 = .ok t4 ∧ applyTable t4 tableIPInverse = .ok out ∧
      out.length = 8 ∧ decryptBlock c block k1 k2 = .ok out) ∧
    decryptBlock c block k1 k2 = encryptBlock c block k2 k1

/-- R172, for every content of the boxes (R175). -/
def Obligations.BlockRoundTrip : Prop :=
  ∀ (c : Config) (b k1 k2 : Bits), b.length = 8 → k1.length = 8 → k2.length = 8 →
    (encryptBlock c b k1 k2 >>= fun t => decryptBlock c t k1 k2) = .ok b ∧
    (decryptBlock c b k1 k2 >>= fun t => encryptBlock c t k1 k2) = .ok b

/-- R173, for every content of the boxes (R175). -/
def Obligations.BlockCipherPermutesBlocks : Prop :=
  ∀ (c : Config) (k1 k2 : Bits), k1.length = 8 → k2.length = 8 →
    (∀ b b' : Bits, b.length = 8 → b'.length = 8 → encryptBlock c b k1 k2 = encryptBlock c b' k1 k2 → b = b') ∧
    (∀ t : Bits, t.length = 8 → ∃ b : Bits, b.length = 8 ∧ encryptBlock c b k1 k2 = .ok t) ∧
    (∀ b b' : Bits, b.length = 8 → b'.length = 8 → decryptBlock c b k1 k2 = decryptBlock c b' k1 k2 → b = b') ∧
    (∀ t : Bits, t.length = 8 → ∃ b : Bits, b.length = 8 ∧ decryptBlock c b k1 k2 = .ok t) ∧
    (∀ b t : Bits, b.length = 8 → t.length = 8 →
      (encryptBlock c b k1 k2 = .ok t ↔ decryptBlock c t k1 k2 = .ok b))

/-- R176: flipping any one bit of a block changes what it encrypts and decrypts to. -/
def Obligations.FlippedBitChangesTheBlock : Prop :=
  ∀ (c : Config) (b k1 k2 : Bits) (i : Nat) (x : Bool), b.length = 8 → k1.length = 8 → k2.length = 8 → b[i]? = some x →
    ∃ t u v w : Bits, encryptBlock c b k1 k2 = .ok t ∧ encryptBlock c (b.set i (!x)) k1 k2 = .ok u ∧ t ≠ u ∧
      decryptBlock c b k1 k2 = .ok v ∧ decryptBlock c (b.set i (!x)) k1 k2 = .ok w ∧ v ≠ w

/-- R180, with the result of R181: byte `j` of the result is byte `j` of the message through the block cipher, under the two subkeys of the
key. -/
def Obligations.MessageCodecIsBytewise : Prop :=
  ∀ (c : Config) (bytes : List Byte) (key : Bits), key.length = 10 →
    ∃ (k1 k2 : Bits) (es ds : List Byte), subkey1 key = .ok k1 ∧ subkey2 key = .ok k2 ∧
      encryptBytes c bytes key = .ok es ∧ es.length = bytes.length ∧
      decryptBytes c bytes key = .ok ds ∧ ds.length = bytes.length ∧
      ∀ (j : Nat) (b : Byte), bytes[j]? = some b →
        ∃ (block t u : Bits) (e d : Byte), byteToBits b 8 = .ok block ∧
          encryptBlock c block k1 k2 = .ok t ∧ bitsToByte t = .ok e ∧ es[j]? = some e ∧
          decryptBlock c block k1 k2 = .ok u ∧ bitsToByte u = .ok d ∧ ds[j]? = some d

/-- R182, with the inverse of R181 and the one-byte case of R184: one codebook per key. A message is its bytes mapped through it, so
encryption distributes over concatenation. -/
def Obligations.OneCodebookPerKey : Prop :=
  ∀ (c : Config) (key : Bits), key.length = 10 →
    ∃ e d : Byte → Byte, (∀ b, d (e b) = b ∧ e (d b) = b) ∧
      (∀ bytes, encryptBytes c bytes key = .ok (bytes.map e) ∧ decryptBytes c bytes key = .ok (bytes.map d)) ∧
      (∀ b, encryptByte c b key = .ok (e b) ∧ decryptByte c b key = .ok (d b))

/-- Values that rest on the default S-boxes (R133, R134), which the spec takes from general knowledge (log entry 4): entries of the
table of 42_sbox.md section 3, vectors V-B1, V-B9, V-B11 and the published example of G4. -/
def Obligations.DefaultEngineMatchesPublishedExample : Prop :=
  sbox0 engine [true, false, true, false] = .ok [true, false] ∧
  sbox0 engine [true, false, false, true] = .ok [true, true] ∧
  sbox1 engine [false, true, true, false] = .ok [true, true] ∧
  sbox1 engine [true, true, false, true] = .ok [false, false] ∧
  subkey1 (bitsOfKey 0b1010000010) = .ok [true, false, true, false, false, true, false, false] ∧
  subkey2 (bitsOfKey 0b1010000010) = .ok [false, true, false, false, false, false, true, true] ∧
  encryptByte engine 0xBD (bitsOfKey 0b1010000010) = .ok 0x75 ∧
  encryptByte engine 0x00 (bitsOfKey 0b1010000010) = .ok 0xCE ∧
  decryptByte engine 0xCE (bitsOfKey 0b1010000010) = .ok 0x00

/-! ### 48_commands.md: completion, result and frame of each command. A record update `{ s with … }` names everything the command
changes: every other field of the state is unchanged. -/

/-- R190: LOADKEY. On a valid key string all ten bits of KEY and KEYV are written and the response is `00 00`. On any other,
KEYV is cleared, KEY holds some bits and the response is `01 00`; `draws` is the model's own count of free values (log entries 2 and 3). -/
def Obligations.LoadkeyInstallsOrClearsTheKey : Prop :=
  ∀ (p : List Byte) (s : State),
    (p.length = 10 ∧ (∀ b ∈ p, b = 0x30 ∨ b = 0x31) →
      ∃ k : Key, (∀ i, i < 10 → (k.getMsbD i = true ↔ p[i]? = some 0x31)) ∧
        exec (.loadkey p) s = .next { s with key := k, keyv := true, tx := s.tx ++ [0x00, 0x00] }) ∧
    (¬ (p.length = 10 ∧ ∀ b ∈ p, b = 0x30 ∨ b = 0x31) →
      ∃ (k : Key) (n : Nat),
        exec (.loadkey p) s = .next { s with key := k, keyv := false, draws := n, tx := s.tx ++ [0x01, 0x00] })

/-- R191: ENCB, with the frame check of a wrong `LEN`. For a fixed key the result is a bijection of the data byte. -/
def Obligations.EncbAnswersTheCiphertext : Prop :=
  ∀ (d : Byte) (s : State),
    (s.keyv = true →
      (∃ (k1 k2 block t : Bits) (r : Byte),
        subkey1 (bitsOfKey s.key) = .ok k1 ∧ subkey2 (bitsOfKey s.key) = .ok k2 ∧ byteToBits d 8 = .ok block ∧
        encryptBlock engine block k1 k2 = .ok t ∧ bitsToByte t = .ok r ∧
        exec (.encb d) s = .next { s with tx := s.tx ++ [0x00, 0x01, r] }) ∧
      (∀ d', exec (.encb d') s = exec (.encb d) s → d' = d) ∧
      (∀ r, ∃ d', exec (.encb d') s = .next { s with tx := s.tx ++ [0x00, 0x01, r] })) ∧
    (s.keyv = false → exec (.encb d) s = .next { s with tx := s.tx ++ [0x05, 0x00] }) ∧
    (∀ p : List Byte, p.length ≠ 1 → transact ⟨0x02, p⟩ s = .next { s with tx := s.tx ++ [0x06, 0x00] })

/-- R192: DECB, with the frame check of a wrong `LEN`. For a fixed key the result is a bijection of the data byte, and DECB takes back
what ENCB answered, and ENCB what DECB answered, in any later state that holds the same key. -/
def Obligations.DecbAnswersThePlaintext : Prop :=
  ∀ (d : Byte) (s : State),
    (s.keyv = true →
      (∃ (k1 k2 block t : Bits) (r : Byte),
        subkey1 (bitsOfKey s.key) = .ok k1 ∧ subkey2 (bitsOfKey s.key) = .ok k2 ∧ byteToBits d 8 = .ok block ∧
        decryptBlock engine block k1 k2 = .ok t ∧ bitsToByte t = .ok r ∧
        exec (.decb d) s = .next { s with tx := s.tx ++ [0x00, 0x01, r] } ∧
        ∀ t : State, t.keyv = true → t.key = s.key → exec (.encb r) t = .next { t with tx := t.tx ++ [0x00, 0x01, d] }) ∧
      (∃ r : Byte, exec (.encb d) s = .next { s with tx := s.tx ++ [0x00, 0x01, r] } ∧
        ∀ t : State, t.keyv = true → t.key = s.key → exec (.decb r) t = .next { t with tx := t.tx ++ [0x00, 0x01, d] }) ∧
      (∀ d', exec (.decb d') s = exec (.decb d) s → d' = d) ∧
      (∀ r, ∃ d', exec (.decb d') s = .next { s with tx := s.tx ++ [0x00, 0x01, r] })) ∧
    (s.keyv = false → exec (.decb d) s = .next { s with tx := s.tx ++ [0x05, 0x00] }) ∧
    (∀ p : List Byte, p.length ≠ 1 → transact ⟨0x03, p⟩ s = .next { s with tx := s.tx ++ [0x06, 0x00] })

/-- R193: ENCM. With a one-byte message it is ENCB. -/
def Obligations.EncmAnswersTheCiphertexts : Prop :=
  ∀ (p : List Byte) (s : State), p.length ≤ 255 →
    (s.keyv = true → ∃ (len : Byte) (rs : List Byte), len.toNat = p.length ∧ rs.length = p.length ∧
      encryptBytes engine p (bitsOfKey s.key) = .ok rs ∧
      (∀ (j : Nat) (b : Byte), p[j]? = some b →
        ∃ r, rs[j]? = some r ∧ encryptByte engine b (bitsOfKey s.key) = .ok r) ∧
      exec (.encm p) s = .next { s with tx := s.tx ++ (0x00 :: len :: rs) }) ∧
    (s.keyv = false → exec (.encm p) s = .next { s with tx := s.tx ++ [0x05, 0x00] }) ∧
    (∀ d, exec (.encm [d]) s = exec (.encb d) s)

/-- R194: DECM. With a one-byte message it is DECB, and it takes back what ENCM answered, in any later state that holds the same key. -/
def Obligations.DecmAnswersThePlaintexts : Prop :=
  ∀ (p : List Byte) (s : State), p.length ≤ 255 →
    (s.keyv = true → ∃ (len : Byte) (rs : List Byte), len.toNat = p.length ∧ rs.length = p.length ∧
      decryptBytes engine p (bitsOfKey s.key) = .ok rs ∧
      (∀ (j : Nat) (b : Byte), p[j]? = some b →
        ∃ r, rs[j]? = some r ∧ decryptByte engine b (bitsOfKey s.key) = .ok r) ∧
      exec (.decm p) s = .next { s with tx := s.tx ++ (0x00 :: len :: rs) } ∧
      ∃ cs : List Byte, cs.length = p.length ∧ exec (.encm p) s = .next { s with tx := s.tx ++ (0x00 :: len :: cs) } ∧
        ∀ t : State, t.keyv = true → t.key = s.key →
          exec (.decm cs) t = .next { t with tx := t.tx ++ (0x00 :: len :: p) }) ∧
    (s.keyv = false → exec (.decm p) s = .next { s with tx := s.tx ++ [0x05, 0x00] }) ∧
    (∀ d, exec (.decm [d]) s = exec (.decb d) s)

/-- R196 and the frame of the four data commands: nothing but the response changes, and the response is a function of KEY, KEYV and the
command alone. -/
def Obligations.DataCommandsOnlyRespond : Prop :=
  ∀ (i : Instr) (key : Key) (keyv : Bool), (∀ p, i ≠ .loadkey p) →
    ∃ r : List Byte, ∀ s : State, s.key = key → s.keyv = keyv → exec i s = .next { s with tx := s.tx ++ r }

/-! ### 30_encoding.md -/

/-- R65: a frame is two bytes and `LEN` more, whatever the opcode. -/
def Obligations.FrameIsTwoBytesAndLenMore : Prop :=
  ∀ (bytes rest : List Byte) (f : Frame),
    cutFrame bytes = some (f, rest) ↔
      ∃ len : Byte, len.toNat = f.payload.length ∧ bytes = f.op :: len :: (f.payload ++ rest)

/-- Encode, then decode: every well-formed command, with every operand, and whatever bytes follow it (R65, R67, R68). -/
def Obligations.DecodeOfEncodeIsTheCommand : Prop :=
  ∀ (i : Instr) (rest : List Byte), i.wf = true → decode (encode i ++ rest) = .ok (i, rest)

/-- Decode, then encode: no bit of a frame is dropped (R72). -/
def Obligations.EncodeOfDecodeIsTheFrame : Prop :=
  ∀ (bytes rest : List Byte) (i : Instr), decode bytes = .ok (i, rest) → i.wf = true ∧ encode i ++ rest = bytes

/-- R67 against opcode_table.json: a frame decodes to a command exactly when one row matches its header word, and that row is the
command's; no two rows match one word. That the table's word has byte 0 in its upper half is log entry 11 (DEDUCED). -/
def Obligations.OpcodeTableAgreesWithDecoder : Prop :=
  ∀ f : Frame, f.payload.length ≤ 255 →
    (∀ i, decodeFrame f = .ok i →
      (opcodeRows.filter fun r => rowMatches r (headerWord f.op (BitVec.ofNat 8 f.payload.length))).map OpcodeRow.mnemonic =
        [mnemonicOf i]) ∧
    (∀ why, decodeFrame f = .error why →
      (opcodeRows.filter fun r => rowMatches r (headerWord f.op (BitVec.ofNat 8 f.payload.length))) = [])

/-- R70 and R71: which frames answer `IllegalCommand` with nothing changed, and that every other frame answers something else. -/
def Obligations.IllegalFramesChangeNothing : Prop :=
  ∀ (op : Byte) (p : List Byte) (s : State),
    ((op = 0x00 ∨ 0x06 ≤ op) ∨ ((op = 0x02 ∨ op = 0x03) ∧ p.length ≠ 1) →
      transact ⟨op, p⟩ s = .next { s with tx := s.tx ++ [0x06, 0x00] }) ∧
    (op = 0x01 ∨ op = 0x04 ∨ op = 0x05 ∨ ((op = 0x02 ∨ op = 0x03) ∧ p.length = 1) →
      ∀ t, transact ⟨op, p⟩ s = .next t → t.tx ≠ s.tx ++ [0x06, 0x00])

/-- Words written out from the encodings of R65 to R69. -/
def Obligations.SampleFramesDecode : Prop :=
  decode [0x01, 0x0A, 0x31, 0x30, 0x31, 0x30, 0x30, 0x30, 0x30, 0x30, 0x31, 0x30] =
    .ok (.loadkey [0x31, 0x30, 0x31, 0x30, 0x30, 0x30, 0x30, 0x30, 0x31, 0x30], []) ∧
  decode [0x02, 0x01, 0x00] = .ok (.encb 0x00, []) ∧
  decode [0x03, 0x01, 0xCE] = .ok (.decb 0xCE, []) ∧
  decode [0x04, 0x03, 0x48, 0x69, 0x21] = .ok (.encm [0x48, 0x69, 0x21], []) ∧
  decode [0x05, 0x03, 0xE0, 0xC7, 0x29] = .ok (.decm [0xE0, 0xC7, 0x29], []) ∧
  decode [0x07, 0x02, 0xAA, 0xBB] = .error (.illegal (.opcode 0x07)) ∧
  decode [0x02, 0x02, 0x00, 0x01] = .error (.illegal (.length 0x02 2)) ∧
  decode [0x04, 0x03, 0x48] = .error .incomplete

/-- R66: every whole frame gets exactly one response frame, with no result bytes unless the status is OK. -/
def Obligations.EveryFrameGetsOneResponse : Prop :=
  ∀ (f : Frame) (s : State), f.payload.length ≤ 255 →
    ∃ (t : State) (status rlen : Byte) (result : List Byte), transact f s = .next t ∧
      t.tx = s.tx ++ (status :: rlen :: result) ∧ rlen.toNat = result.length ∧ (status ≠ 0x00 → result = []) ∧
      ∀ more, cutResponse (status :: rlen :: result ++ more) = some ((status, result), more)

/-- A run of frames answers with one response per frame, in order, none omitted (R49, R62, R270): response `j` is the one that frame `j`
appends in the state the frames before it leave. -/
def Obligations.RunAnswersEveryFrameInOrder : Prop :=
  ∀ (frames : List Frame) (s : State), (∀ f ∈ frames, f.payload.length ≤ 255) →
    ∃ (t : State) (responses : List (Byte × List Byte)), runFrames frames s = .next t ∧
      responses.length = frames.length ∧ (t.tx = s.tx ++ responses.flatMap fun r => responseFrame r.1 r.2) ∧
      ∀ (j : Nat) (f : Frame), frames[j]? = some f →
        ∃ (before after : State) (r : Byte × List Byte), responses[j]? = some r ∧ r.2.length ≤ 255 ∧
          runFrames (frames.take j) s = .next before ∧ transact f before = .next after ∧
          after.tx = before.tx ++ responseFrame r.1 r.2 ∧ runFrames (frames.take (j + 1)) s = .next after

/-- R73: the worked encodings of 30_encoding.md section 7 and the text of responses. -/
def Obligations.AssemblerGivesTheWorkedFrames : Prop :=
  assembleLine "LOADKEY \"10101\"".toList = .ok [⟨0x01, [0x31, 0x30, 0x31, 0x30, 0x31]⟩] ∧
  assembleLine "ENCS \"Hi!\"".toList = .ok [⟨0x04, [0x48, 0x69, 0x21]⟩] ∧
  assembleLine "ENCB 0x00 ; a comment".toList = .ok [⟨0x02, [0x00]⟩] ∧
  assembleLine "DECB 0xCE".toList = .ok [⟨0x03, [0xCE]⟩] ∧
  assembleLine "ENCM 0x48, 105, 0b100001".toList = .ok [⟨0x04, [0x48, 0x69, 0x21]⟩] ∧
  assembleLine "ENCM".toList = .ok [⟨0x04, []⟩] ∧
  assembleLine "DECM 0xE0, 0xC7, 0x29".toList = .ok [⟨0x05, [0xE0, 0xC7, 0x29]⟩] ∧
  responseText 0x00 [0xE0, 0xC7] = some "OK 0xE0, 0xC7".toList ∧
  responseText 0x05 [] = some "ERR KeyNotSet".toList

/-- R74: the frames of a long message carry it whole, 255 bytes each and a last one of the remainder; and with a key installed each frame gets
one `OK` response, the result of its own payload, and these results together are the result of the whole message. That a
message of at most 255 bytes is one frame, and that no empty last frame follows where R74's remainder is 0, is the model's choice (log entry
16, PRESUMED). -/
def Obligations.LongMessageGivesTheWholeResult : Prop :=
  ∀ (bytes : List Byte) (s : State), s.keyv = true →
    (∀ op : Byte, (longMessage op bytes).flatMap Frame.payload = bytes ∧ longMessage op bytes ≠ [] ∧
      (∀ (j : Nat) (f : Frame), (longMessage op bytes)[j]? = some f → f.op = op ∧ f.payload.length ≤ 255 ∧
        (j + 1 < (longMessage op bytes).length → f.payload.length = 255) ∧ (bytes ≠ [] → f.payload ≠ []))) ∧
    (∃ results : List (List Byte), results.length = (longMessage 0x04 bytes).length ∧
      (∀ (j : Nat) (f : Frame), (longMessage 0x04 bytes)[j]? = some f → ∃ r, results[j]? = some r ∧
        r.length = f.payload.length ∧ encryptBytes engine f.payload (bitsOfKey s.key) = .ok r) ∧
      runFrames (longMessage 0x04 bytes) s = .next { s with tx := s.tx ++ results.flatMap okFrame } ∧
      encryptBytes engine bytes (bitsOfKey s.key) = .ok results.flatten) ∧
    (∃ results : List (List Byte), results.length = (longMessage 0x05 bytes).length ∧
      (∀ (j : Nat) (f : Frame), (longMessage 0x05 bytes)[j]? = some f → ∃ r, results[j]? = some r ∧
        r.length = f.payload.length ∧ decryptBytes engine f.payload (bitsOfKey s.key) = .ok r) ∧
      runFrames (longMessage 0x05 bytes) s = .next { s with tx := s.tx ++ results.flatMap okFrame } ∧
      decryptBytes engine bytes (bitsOfKey s.key) = .ok results.flatten)

/-! ### 60_exceptions.md -/

/-- The codes of R221, and that no two kinds share one. -/
def Obligations.StatusCodesAreTheTable : Prop :=
  codeOK = 0x00 ∧ ErrorKind.code .invalidKeyFormat = 0x01 ∧ ErrorKind.code .lengthMismatch = 0x02 ∧
  ErrorKind.code .indexOutOfRange = 0x03 ∧ ErrorKind.code .invalidSBoxInput = 0x04 ∧ ErrorKind.code .keyNotSet = 0x05 ∧
  ErrorKind.code .illegalCommand = 0x06 ∧
  ∀ a b : ErrorKind, ErrorKind.code a = ErrorKind.code b → a = b

/-- R228: no command answers with an internal-consistency fault; and where an internal function did raise one, the command would answer
its code with no result and the state unchanged. -/
def Obligations.InternalFaultsAreNeverAnswered : Prop :=
  (∀ (f : Frame) (s : State), ∃ (t : State) (status : Byte) (rest : List Byte), transact f s = .next t ∧
    t.tx = s.tx ++ status :: rest ∧ status ≠ 0x02 ∧ status ≠ 0x03 ∧ status ≠ 0x04) ∧
  (∀ (s : State) (g : Bits → Except Stop (List Byte)) (e : ErrorKind), s.keyv = true →
    g (bitsOfKey s.key) = .error (.raise e) →
      dataCommand s g = .next { s with tx := s.tx ++ [ErrorKind.code e, 0x00] })

/-- The checks in the order of R230: the frame check before the key check, the key check before any data, and LOADKEY reports neither. -/
def Obligations.ChecksComeInOrder : Prop :=
  (∀ (p : List Byte) (s : State), p.length ≠ 1 → s.keyv = false →
    transact ⟨0x02, p⟩ s = .next { s with tx := s.tx ++ [0x06, 0x00] } ∧
    transact ⟨0x03, p⟩ s = .next { s with tx := s.tx ++ [0x06, 0x00] }) ∧
  (∀ (i : Instr) (s : State), (∀ p, i ≠ .loadkey p) → s.keyv = false →
    exec i s = .next { s with tx := s.tx ++ [0x05, 0x00] }) ∧
  (∀ (p : List Byte) (s : State), ∃ (t : State) (status : Byte), transact ⟨0x01, p⟩ s = .next t ∧
    t.tx = s.tx ++ [status, 0x00] ∧ (status = 0x00 ∨ status = 0x01) ∧
    (p.length ≠ 10 ∨ (∃ b ∈ p, b ≠ 0x30 ∧ b ≠ 0x31) → status = 0x01))

/-- R231: a frame that ends in an error leaves the state as it was, but for its response and, after `InvalidKeyFormat`, the key. -/
def Obligations.ErrorsHaveNoOtherEffect : Prop :=
  ∀ (f : Frame) (s t : State) (e : ErrorKind), transact f s = .next t → t.tx = s.tx ++ [ErrorKind.code e, 0x00] →
    (e ≠ .invalidKeyFormat → t = { s with tx := t.tx }) ∧
    (e = .invalidKeyFormat → t.keyv = false ∧ t = { s with tx := t.tx, keyv := false, key := t.key, draws := t.draws })

/-! ### 10_state.md, 70_reset_and_hazards.md -/

/-- The reset state (R32, R260): no key installed, nothing in progress, nothing pending. Two clauses are the model's choice: that `cmd_ready` is
asserted at once, where R260 says only that it may be (log entry 8, DESIGN CHOICE), and that the two streams begin empty (log entry 9, DESIGN
CHOICE). Nothing is said of KEY, which is a free value (log entry 1). -/
def Obligations.ResetInstallsNoKey : Prop :=
  State.reset.keyv = false ∧ State.reset.rx = [] ∧ State.reset.tx = [] ∧ State.reset.cmdStream = [] ∧
  State.reset.rspStream = [] ∧ State.reset.rspValid = false ∧ State.reset.cmdReady = true

/-- `rst` at any moment, also inside a frame or a response, gives a fresh state (R260, R262). Three clauses are the model's choice: the premise
that a moment passes, since a complete frame is executed first, which a reset cannot be told apart from (log entry 8, DESIGN CHOICE); that the
two streams begin empty again (log entry 9, DESIGN CHOICE); and that whatever else the host drives at that moment has no effect (log entry
10, DEDUCED). -/
def Obligations.ResetAtAnyMomentStartsAfresh : Prop :=
  ∀ (s : State) (m : Moment) (rest : List Moment), s.host = m :: rest → m.rst = true →
    (s.tx ≠ [] ∨ cutFrame s.rx = none) → ∃ (k : Key) (n : Nat), step s = .next (State.fresh k n rest)

/-- Until a valid LOADKEY every frame ends in an error, every legal data command in `KeyNotSet`, and no key is installed (R263). -/
def Obligations.NoDataBeforeAValidLoadkey : Prop :=
  ∀ (frames : List Frame) (s : State), s.keyv = false →
    (∀ f ∈ frames, f.op = 0x01 → validKeyString engine f.payload = false) →
    ∃ (t : State) (errors : List ErrorKind), runFrames frames s = .next t ∧ t.keyv = false ∧
      errors.length = frames.length ∧ t.tx = s.tx ++ errors.flatMap errFrame ∧
      ∀ (j : Nat) (f : Frame) (i : Instr), frames[j]? = some f → decodeFrame f = .ok i → (∀ p, i ≠ .loadkey p) →
        errors[j]? = some .keyNotSet

/-- The host cannot tell apart states that differ only in the bits of KEY while no key is installed: every step keeps them so (R24), and
so a failed LOADKEY leaves what reset leaves (R260). -/
def Obligations.UnsetKeyBitsAreInvisible : Prop :=
  ∀ s t : State, Indistinguishable s t → SameToHost (step s) (step t)

/-- Who writes KEY and KEYV (R24): over every step, a change of KEYV or of KEY is that of a LOADKEY that executed or of a moment that passed with
`rst` asserted. -/
def Obligations.OnlyLoadkeyAndResetWriteTheKey : Prop :=
  ∀ s t : State, step s = .next t →
    (t.key ≠ s.key ∨ t.keyv ≠ s.keyv ∨ t.draws ≠ s.draws →
      (∃ (p : List Byte) (rest : List Byte), s.tx = [] ∧ decode s.rx = .ok (.loadkey p, rest)) ∨
      ((s.tx ≠ [] ∨ cutFrame s.rx = none) ∧ ∃ (m : Moment) (rest : List Moment), s.host = m :: rest ∧ m.rst = true ∧ t.host = rest))

/-! ### The step and the channels -/

/-- A step executes the command that has been received (R62, R195): while no response is pending, a complete frame is taken out of
`rx` and the step is `exec` of its command; a complete illegal frame is taken out whole (R70) and answered `06 00`. That execution is a step
of its own is the model's choice (log entry 8, DESIGN CHOICE). -/
def Obligations.StepRunsTheDecodedCommand : Prop :=
  ∀ (s : State), s.tx = [] →
    (∀ (i : Instr) (rest : List Byte), decode s.rx = .ok (i, rest) → step s = exec i { s with rx := rest }) ∧
    (∀ (why : Illegal), decode s.rx = .error (.illegal why) →
      ∃ (f : Frame) (rest : List Byte), cutFrame s.rx = some (f, rest) ∧ decodeFrame f = .error why ∧
        step s = .next { s with rx := rest, tx := [0x06, 0x00] })

/-- A table word placed with `withFetchWord` is what the next step runs (log entries 11 and 12: the model's own convention). -/
def Obligations.PlacedWordRunsNext : Prop :=
  ∀ (s : State) (nbits w : Nat) (i : Instr), decodeTableWord nbits w = some i →
    step (s.withFetchWord nbits w) = exec i { s with rx := [], tx := [] }

/-- R61: a byte crosses a channel exactly when valid and ready are both asserted, and then it is appended to the channel's stream; otherwise
the moment changes nothing. The premises that a moment passes and that `rst` is not asserted are log entries 8 (DESIGN CHOICE) and 10
(DEDUCED). -/
def Obligations.ByteCrossesWhenValidAndReady : Prop :=
  ∀ (s : State) (m : Moment) (rest : List Moment), s.host = m :: rest → m.rst = false →
    (s.tx ≠ [] ∨ cutFrame s.rx = none) →
    (∀ b, m.cmd = some b → s.cmdReady = true →
      step s = .next { s with host := rest, rx := s.rx ++ [b], cmdStream := s.cmdStream ++ [b] }) ∧
    (∀ b tail, s.tx = b :: tail → m.rspReady = true →
      step s = .next { s with host := rest, tx := tail, rspStream := s.rspStream ++ [b] }) ∧
    ((m.cmd = none ∨ s.cmdReady = false) → (m.rspReady = false ∨ s.rspValid = false) →
      step s = .next { s with host := rest })

/-- `cmd_ready` and `rsp_valid` (R62): a command byte is taken only when no response byte is pending and no frame is complete; a response byte
is offered only while one is pending; never both. That each is asserted as soon as R62 allows, which makes the two clauses equivalences, is
the model's choice (log entry 8, DESIGN CHOICE). -/
def Obligations.ReadyOnlyAfterTheResponse : Prop :=
  ∀ s : State, (s.cmdReady = true ↔ s.tx = [] ∧ cutFrame s.rx = none) ∧ (s.rspValid = true ↔ s.tx ≠ []) ∧
    ¬ (s.cmdReady = true ∧ s.rspValid = true)

/-- When the engine is stuck (R64, R269): exactly when the host's moments have ended and it needs a command byte or offers a response byte.
It never refuses a step. That the stop is a fault of one of two names is the model's choice (log entry 8, DESIGN CHOICE). -/
def Obligations.StuckExactlyWhenTheHostIsSilent : Prop :=
  ∀ s : State, SafeStep s ∧
    (step s = .fault .stuckAwaitingCommand ↔ s.host = [] ∧ s.tx = [] ∧ cutFrame s.rx = none) ∧
    (step s = .fault .stuckAwaitingHost ↔ s.host = [] ∧ s.tx ≠ [])

/-- A frame offered byte by byte to an idle engine is executed once its last byte has crossed: `LEN + 2` moments and one
execution (R62, R269). The count of steps is the model's choice (log entry 8, DESIGN CHOICE). -/
def Obligations.OfferedFrameIsExecuted : Prop :=
  ∀ (s : State) (f : Frame) (ready : Bool) (rest : List Moment), f.payload.length ≤ 255 → s.tx = [] → s.rx = [] →
    s.host = (encodeFrame f).map (fun b => (⟨false, some b, ready⟩ : Moment)) ++ rest →
    ∃ t, Host.Core.run core (f.payload.length + 3) s = .next t ∧
      transact f { s with host := rest, cmdStream := s.cmdStream ++ encodeFrame f } = .next t

/-- A pending response leaves byte by byte, in order, while the host takes it (R61, R62). That it takes exactly as many moments as it has bytes is
the model's choice, which offers each byte at once (log entry 8, DESIGN CHOICE). -/
def Obligations.TakenResponseLeavesInOrder : Prop :=
  ∀ (s : State) (moments rest : List Moment), moments.length = s.tx.length →
    (∀ m ∈ moments, m.rst = false ∧ m.rspReady = true) → s.host = moments ++ rest →
    Host.Core.run core s.tx.length s = .next { s with tx := [], rspStream := s.rspStream ++ s.tx, host := rest }

/-- Every step keeps the channels well formed (R62, R65, R66). -/
def Obligations.StepKeepsChannelInv : Prop :=
  ∀ s t : State, ChannelInv s → step s = .next t → ChannelInv t

/-- The channels are well formed at reset (R260). -/
def Obligations.ResetHasChannelInv : Prop := ChannelInv State.reset

/-- Every step keeps the byte level and the transaction level in agreement (R62, R63). The streams are the model's fields
(log entry 9, DESIGN CHOICE). -/
def Obligations.StepKeepsStreamsAgree : Prop :=
  ∀ s t : State, StreamsAgree s → step s = .next t → StreamsAgree t

/-- The two levels agree at reset (R63, R270). The streams are the model's fields (log entry 9, DESIGN CHOICE). -/
def Obligations.ResetHasStreamsAgree : Prop := StreamsAgree State.reset
end

