-- ==== Sys2Proof/Laws/Assembler.lean ====
section
/-! SUPPORT. What splitting a long message gives (R74): the pieces together are the message, and every piece but the last is full. -/

namespace Sys2Proof.Machine

/-- The pieces of a message, one after another, are the message. -/
theorem splitMessage_flatten (fuel : Nat) (p : List Byte) : (splitMessage fuel p).flatten = p := by
  induction fuel generalizing p with
  | zero => simp [splitMessage]
  | succ n ih => unfold splitMessage; split_ifs <;> simp [ih]

/-- There is always a piece. -/
theorem splitMessage_ne_nil (fuel : Nat) (p : List Byte) : splitMessage fuel p ≠ [] := by
  cases fuel with
  | zero => simp [splitMessage]
  | succ n => unfold splitMessage; split_ifs <;> simp

/-- With fuel for it, every piece fits a frame. -/
theorem splitMessage_fits (fuel : Nat) (p : List Byte) (h : p.length ≤ lenMax * (fuel + 1)) :
    ∀ q ∈ splitMessage fuel p, q.length ≤ lenMax := by
  induction fuel generalizing p with
  | zero => simpa [splitMessage] using h
  | succ n ih =>
    unfold splitMessage
    split_ifs with short
    · simpa using short
    · intro q hq
      rcases List.mem_cons.mp hq with rfl | hq
      · simp
      · exact ih _ (by simp [lenMax] at *; omega) q hq

/-- Every piece but the last is full. -/
theorem splitMessage_full (fuel : Nat) (p : List Byte) (j : Nat) (q : List Byte) (hj : (splitMessage fuel p)[j]? = some q)
    (hl : j + 1 < (splitMessage fuel p).length) : q.length = lenMax := by
  induction fuel generalizing p j with
  | zero => simp [splitMessage] at hl
  | succ n ih =>
    unfold splitMessage at hj hl
    split_ifs at hj hl with short
    · simp at hl
    · cases j with
      | zero =>
        simp at hj
        subst hj
        simp at short ⊢
        omega
      | succ j => exact ih _ j (by simpa using hj) (by simpa using hl)

/-- A message that is not empty has no empty piece. -/
theorem splitMessage_pieces_ne_nil (fuel : Nat) (p : List Byte) (h : p ≠ []) : ∀ q ∈ splitMessage fuel p, q ≠ [] := by
  induction fuel generalizing p with
  | zero => simpa [splitMessage] using h
  | succ n ih =>
    unfold splitMessage
    split_ifs with short
    · simpa using h
    · intro q hq
      rcases List.mem_cons.mp hq with rfl | hq
      · simp [h]
      · exact ih _ (by simp at short ⊢; omega) q hq

end Sys2Proof.Machine
end

