-- ==== Sys2Proof/Laws/Datapath.lean ====
section
/-! SUPPORT. What the internal functions of files 40 to 47 answer on operands of the lengths the engine gives them; callers cite these
instead of unfolding the callee. Each holds for every content of the S-boxes (R175). -/

namespace Sys2Proof.Machine

@[simp] theorem ok_bind {α β : Type} (a : α) (f : α → Except Stop β) : (Except.ok a >>= f) = f a := rfl

@[simp] theorem error_bind {α β : Type} (e : Stop) (f : α → Except Stop β) : (Except.error e >>= f) = Except.error e := rfl

/-- A sequence of 4 bits, bit by bit. -/
theorem bits_four {x : Bits} (h : x.length = 4) : ∃ a b c d, x = [a, b, c, d] := by
  obtain _ | ⟨a, _ | ⟨b, _ | ⟨c, _ | ⟨d, _ | ⟨e, t⟩⟩⟩⟩⟩ := x <;> simp_all

/-- A sequence of 2 bits, bit by bit. -/
theorem bits_two {x : Bits} (h : x.length = 2) : ∃ a b, x = [a, b] := by
  obtain _ | ⟨a, _ | ⟨b, _ | ⟨c, t⟩⟩⟩ := x <;> simp_all

/-- A sequence of 8 bits as its two halves. -/
theorem bits_halves {x : Bits} (h : x.length = 8) : ∃ l r : Bits, l.length = 4 ∧ r.length = 4 ∧ x = l ++ r :=
  ⟨x.take 4, x.drop 4, by simp [h], by simp [h], (List.take_append_drop 4 x).symm⟩

/-- A sequence of 8 bits, bit by bit. -/
theorem bits_eight {x : Bits} (h : x.length = 8) :
    ∃ a b c d e f g i, x = [a, b, c, d, e, f, g, i] := by
  obtain ⟨l, r, hl, hr, rfl⟩ := bits_halves h
  obtain ⟨a, b, c, d, rfl⟩ := bits_four hl
  obtain ⟨e, f, g, i, rfl⟩ := bits_four hr
  exact ⟨a, b, c, d, e, f, g, i, rfl⟩

/-- A sequence of 10 bits, bit by bit. -/
theorem bits_ten {x : Bits} (h : x.length = 10) :
    ∃ a b c d e f g i j k, x = [a, b, c, d, e, f, g, i, j, k] := by
  obtain ⟨a, b, c, d, e, f, g, i, h'⟩ := bits_eight (x := x.take 8) (by simp [h])
  obtain ⟨j, k, h''⟩ := bits_two (x := x.drop 8) (by simp [h])
  exact ⟨a, b, c, d, e, f, g, i, j, k, by rw [← List.take_append_drop 8 x, h', h'']; rfl⟩

/-- The halves of two parts of equal length are the parts (R90). -/
theorem leftHalf_append {l r : Bits} (h : l.length = r.length) : leftHalf (l ++ r) = .ok l := by
  have h2 : (l ++ r).length = 2 * l.length := by simp [h]; omega
  simp [leftHalf, h2]

/-- The halves of two parts of equal length are the parts (R91). -/
theorem rightHalf_append {l r : Bits} (h : l.length = r.length) : rightHalf (l ++ r) = .ok r := by
  have h2 : (l ++ r).length = 2 * l.length := by simp [h]; omega
  simp [rightHalf, h2]

/-- `xor` of equal lengths (R92). -/
theorem xorBits_ok {a b : Bits} (h : a.length = b.length) : xorBits a b = .ok (List.zipWith Bool.xor a b) := by
  simp [xorBits, h]

/-- Xor with the same operand twice gives back the other. -/
theorem zipWith_xor_cancel {a b : Bits} (h : a.length = b.length) :
    List.zipWith Bool.xor (List.zipWith Bool.xor a b) b = a := by
  induction a generalizing b with
  | nil => simp
  | cons x a ih =>
    cases b with
    | nil => simp at h
    | cons y b => simp [ih (Nat.succ.inj h)]

/-- `applyTable` answers exactly when every entry is a position of the input, and then with one bit per entry (R110). -/
theorem applyTable_ok {input : Bits} {table : List Int} (h : ∀ t ∈ table, 0 ≤ t ∧ t < input.length) :
    ∃ out : Bits, applyTable input table = .ok out ∧ out.length = table.length := by
  induction table with
  | nil => exact ⟨[], rfl, rfl⟩
  | cons t ts ih =>
    obtain ⟨out, ho, hl⟩ := ih fun u hu => h u (List.mem_cons_of_mem _ hu)
    obtain ⟨h0, h1⟩ := h t List.mem_cons_self
    have hlt : t.toNat < input.length := by omega
    refine ⟨input[t.toNat] :: out, ?_, by simp [hl]⟩
    simp [applyTable, readAt, not_lt.mpr h0, List.getElem?_eq_getElem hlt, ho]

/-- An S-box answers two bits on every 4-bit input (R130, R135). -/
theorem sboxLookup_ok (table : SBoxTable) {x : Bits} (h : x.length = 4) :
    ∃ out : Bits, sboxLookup table x = .ok out ∧ out.length = 2 := by
  obtain ⟨a, b, c, d, rfl⟩ := bits_four h
  exact ⟨_, rfl, by simp⟩

/-- The Feistel function answers four bits (R140). -/
theorem feistel_ok (c : Config) {k x : Bits} (hk : k.length = 8) (hx : x.length = 4) :
    ∃ out : Bits, feistel c k x = .ok out ∧ out.length = 4 := by
  obtain ⟨e, he, hel⟩ := applyTable_ok (input := x) (table := tableEP) (by rw [hx]; decide)
  have hm : (List.zipWith Bool.xor k e).length = 8 := by simp [hk, hel, tableEP]
  obtain ⟨l, r, hl, hr, hmr⟩ := bits_halves hm
  obtain ⟨s0, h0, h0l⟩ := sboxLookup_ok c.sbox0 hl
  obtain ⟨s1, h1, h1l⟩ := sboxLookup_ok c.sbox1 hr
  obtain ⟨out, ho, hol⟩ := applyTable_ok (input := s0 ++ s1) (table := tableP4) (by
    rw [List.length_append, h0l, h1l]; decide)
  refine ⟨out, ?_, by simpa [tableP4] using hol⟩
  have hlr : l.length = r.length := by omega
  simp only [feistel, he, ok_bind, xorBits_ok (show k.length = e.length by simp [hk, hel, tableEP]), hmr,
    leftHalf_append hlr, rightHalf_append hlr, sbox0, sbox1, h0, h1, concat, ho]

/-- The round changes the left half by exclusive-or with the Feistel output and keeps the right half (R150). -/
theorem roundBlock_append (c : Config) {k l r f : Bits} (hl : l.length = 4) (hr : r.length = 4)
    (hf : feistel c k r = .ok f) (hfl : f.length = 4) :
    roundBlock c (l ++ r) k = .ok (List.zipWith Bool.xor l f ++ r) := by
  have hlr : l.length = r.length := by omega
  simp only [roundBlock, rightHalf_append hlr, leftHalf_append hlr, ok_bind, hf, xorBits_ok (show l.length = f.length by omega),
    concat]

/-- The round answers a block (R150). -/
theorem roundBlock_ok (c : Config) {x k : Bits} (hx : x.length = 8) (hk : k.length = 8) :
    ∃ out : Bits, roundBlock c x k = .ok out ∧ out.length = 8 := by
  obtain ⟨l, r, hl, hr, rfl⟩ := bits_halves hx
  obtain ⟨f, hf, hfl⟩ := feistel_ok c hk hr
  exact ⟨_, roundBlock_append c hl hr hf hfl, by simp [hl, hr, hfl]⟩

/-- The half-swap exchanges the two halves (R151). -/
theorem swapHalves_append {l r : Bits} (h : l.length = r.length) : swapHalves (l ++ r) = .ok (r ++ l) := by
  simp only [swapHalves, rightHalf_append h, leftHalf_append h, ok_bind, concat]

/-- The half-swap answers a block. -/
theorem swapHalves_ok {x : Bits} (hx : x.length = 8) : ∃ out : Bits, swapHalves x = .ok out ∧ out.length = 8 := by
  obtain ⟨l, r, hl, hr, rfl⟩ := bits_halves hx
  exact ⟨_, swapHalves_append (by omega), by simp [hl, hr]⟩

/-- The pipeline answers a block (R170, R171). -/
theorem blockPipeline_ok (c : Config) {b k1 k2 : Bits} (hb : b.length = 8) (h1 : k1.length = 8) (h2 : k2.length = 8) :
    ∃ out : Bits, blockPipeline c b k1 k2 = .ok out ∧ out.length = 8 := by
  obtain ⟨t1, e1, l1⟩ := applyTable_ok (input := b) (table := tableIP) (by rw [hb]; decide)
  obtain ⟨t2, e2, l2⟩ := roundBlock_ok c (x := t1) l1 h1
  obtain ⟨t3, e3, l3⟩ := swapHalves_ok l2
  obtain ⟨t4, e4, l4⟩ := roundBlock_ok c l3 h2
  obtain ⟨t5, e5, l5⟩ := applyTable_ok (input := t4) (table := tableIPInverse) (by rw [l4]; decide)
  exact ⟨t5, by simp only [blockPipeline, e1, e2, e3, e4, e5, ok_bind], l5⟩

/-- `byteToBits` of a size up to 8 (R95). -/
theorem byteToBits_ok (b : Byte) {n : Nat} (h : n ≤ 8) :
    byteToBits b n = .ok ((List.range n).map fun i => b.getLsbD (n - 1 - i)) := by
  simp [byteToBits, h]

/-- `bitsToByte` of at most 8 bits (R94). -/
theorem bitsToByte_ok {x : Bits} (h : x.length ≤ 8) : bitsToByte x = .ok (BitVec.ofNat 8 (bitsToNat x)) := by
  simp [bitsToByte, h]

/-- A block function that answers blocks gives a byte function that answers bytes. -/
theorem codeByte_ok {f : Bits → Except Stop Bits}
    (hf : ∀ x : Bits, x.length = 8 → ∃ out : Bits, f x = .ok out ∧ out.length = 8) (b : Byte) :
    ∃ r, codeByte f b = .ok r := by
  obtain ⟨out, ho, hl⟩ := hf ((List.range 8).map fun i => b.getLsbD (8 - 1 - i)) (by simp)
  refine ⟨BitVec.ofNat 8 (bitsToNat out), ?_⟩
  simp only [codeByte, blockBits, byteToBits_ok b (le_refl 8), ok_bind, ho, bitsToByte_ok (le_of_eq hl)]

/-- A byte function that always answers takes a message to a message of the same length (R180). -/
theorem codeBytes_ok {f : Bits → Except Stop Bits} (hf : ∀ b, ∃ r, codeByte f b = .ok r) (bytes : List Byte) :
    ∃ rs, codeBytes f bytes = .ok rs ∧ rs.length = bytes.length := by
  induction bytes with
  | nil => exact ⟨[], rfl, rfl⟩
  | cons b bs ih =>
    obtain ⟨r, hr⟩ := hf b
    obtain ⟨rs, hrs, hl⟩ := ih
    exact ⟨r :: rs, by simp [codeBytes, hr, hrs], by simp [hl]⟩

/-- Both subkeys of a 10-bit key (R160, R161). -/
theorem subkeys_ok {key : Bits} (h : key.length = 10) :
    ∃ k1 k2 : Bits, subkey1 key = .ok k1 ∧ subkey2 key = .ok k2 ∧ k1.length = 8 ∧ k2.length = 8 := by
  obtain ⟨k1, e1, l1⟩ := applyTable_ok (input := key) (table := tableK1SEL) (by rw [h]; decide)
  obtain ⟨k2, e2, l2⟩ := applyTable_ok (input := key) (table := tableK2SEL) (by rw [h]; decide)
  exact ⟨k1, k2, e1, e2, l1, l2⟩

@[simp] theorem bitsOfKey_length (k : Key) : (bitsOfKey k).length = 10 := by simp [bitsOfKey]

/-- Every byte encrypts under every key (R184, R228). -/
theorem encryptByte_ok (c : Config) (b : Byte) {key : Bits} (h : key.length = 10) : ∃ r, encryptByte c b key = .ok r := by
  obtain ⟨k1, k2, e1, e2, l1, l2⟩ := subkeys_ok h
  obtain ⟨r, hr⟩ := codeByte_ok (f := fun block => encryptBlock c block k1 k2) (fun x hx => blockPipeline_ok c hx l1 l2) b
  exact ⟨r, by simp only [encryptByte, e1, e2, ok_bind, hr]⟩

/-- Every byte decrypts under every key (R184, R228). -/
theorem decryptByte_ok (c : Config) (b : Byte) {key : Bits} (h : key.length = 10) : ∃ r, decryptByte c b key = .ok r := by
  obtain ⟨k1, k2, e1, e2, l1, l2⟩ := subkeys_ok h
  obtain ⟨r, hr⟩ := codeByte_ok (f := fun block => decryptBlock c block k1 k2) (fun x hx => blockPipeline_ok c hx l2 l1) b
  exact ⟨r, by simp only [decryptByte, e1, e2, ok_bind, hr]⟩

/-- Every message encrypts under every key, to the same length (R180, R228). -/
theorem encryptBytes_ok (c : Config) (bytes : List Byte) {key : Bits} (h : key.length = 10) :
    ∃ rs, encryptBytes c bytes key = .ok rs ∧ rs.length = bytes.length := by
  obtain ⟨k1, k2, e1, e2, l1, l2⟩ := subkeys_ok h
  obtain ⟨rs, hr, hl⟩ := codeBytes_ok (f := fun block => encryptBlock c block k1 k2)
    (fun b => codeByte_ok (fun x hx => blockPipeline_ok c hx l1 l2) b) bytes
  exact ⟨rs, by simp only [encryptBytes, e1, e2, ok_bind, hr], hl⟩

/-- Every message decrypts under every key, to the same length (R181, R228). -/
theorem decryptBytes_ok (c : Config) (bytes : List Byte) {key : Bits} (h : key.length = 10) :
    ∃ rs, decryptBytes c bytes key = .ok rs ∧ rs.length = bytes.length := by
  obtain ⟨k1, k2, e1, e2, l1, l2⟩ := subkeys_ok h
  obtain ⟨rs, hr, hl⟩ := codeBytes_ok (f := fun block => decryptBlock c block k1 k2)
    (fun b => codeByte_ok (fun x hx => blockPipeline_ok c hx l2 l1) b) bytes
  exact ⟨rs, by simp only [decryptBytes, e1, e2, ok_bind, hr], hl⟩

end Sys2Proof.Machine
end

