-- ==== Sys2Proof/Laws/State.lean ====
section
/-! SUPPORT. What each update of the state does to each field, so that no later proof unfolds a record update. -/

namespace Sys2Proof.Machine

@[simp] theorem installKey_key (s : State) (k : Key) : (installKey s k).key = k := rfl
@[simp] theorem installKey_keyv (s : State) (k : Key) : (installKey s k).keyv = true := rfl
@[simp] theorem installKey_rx (s : State) (k : Key) : (installKey s k).rx = s.rx := rfl
@[simp] theorem installKey_tx (s : State) (k : Key) : (installKey s k).tx = s.tx := rfl
@[simp] theorem installKey_cmdStream (s : State) (k : Key) : (installKey s k).cmdStream = s.cmdStream := rfl
@[simp] theorem installKey_rspStream (s : State) (k : Key) : (installKey s k).rspStream = s.rspStream := rfl
@[simp] theorem installKey_host (s : State) (k : Key) : (installKey s k).host = s.host := rfl
@[simp] theorem installKey_draws (s : State) (k : Key) : (installKey s k).draws = s.draws := rfl

@[simp] theorem clearKey_key (s : State) : (clearKey s).key = Config.freeKey s.draws := rfl
@[simp] theorem clearKey_keyv (s : State) : (clearKey s).keyv = false := rfl
@[simp] theorem clearKey_rx (s : State) : (clearKey s).rx = s.rx := rfl
@[simp] theorem clearKey_tx (s : State) : (clearKey s).tx = s.tx := rfl
@[simp] theorem clearKey_cmdStream (s : State) : (clearKey s).cmdStream = s.cmdStream := rfl
@[simp] theorem clearKey_rspStream (s : State) : (clearKey s).rspStream = s.rspStream := rfl
@[simp] theorem clearKey_host (s : State) : (clearKey s).host = s.host := rfl
@[simp] theorem clearKey_draws (s : State) : (clearKey s).draws = s.draws + 1 := rfl

@[simp] theorem emit_key (s : State) (r : List Byte) : (emit s r).key = s.key := rfl
@[simp] theorem emit_keyv (s : State) (r : List Byte) : (emit s r).keyv = s.keyv := rfl
@[simp] theorem emit_rx (s : State) (r : List Byte) : (emit s r).rx = s.rx := rfl
@[simp] theorem emit_tx (s : State) (r : List Byte) : (emit s r).tx = s.tx ++ r := rfl
@[simp] theorem emit_cmdStream (s : State) (r : List Byte) : (emit s r).cmdStream = s.cmdStream := rfl
@[simp] theorem emit_rspStream (s : State) (r : List Byte) : (emit s r).rspStream = s.rspStream := rfl
@[simp] theorem emit_host (s : State) (r : List Byte) : (emit s r).host = s.host := rfl
@[simp] theorem emit_draws (s : State) (r : List Byte) : (emit s r).draws = s.draws := rfl

@[simp] theorem respondOK_key (s : State) (r : List Byte) : (respondOK s r).key = s.key := rfl
@[simp] theorem respondOK_keyv (s : State) (r : List Byte) : (respondOK s r).keyv = s.keyv := rfl
@[simp] theorem respondOK_rx (s : State) (r : List Byte) : (respondOK s r).rx = s.rx := rfl
@[simp] theorem respondOK_tx (s : State) (r : List Byte) : (respondOK s r).tx = s.tx ++ okFrame r := rfl
@[simp] theorem respondOK_cmdStream (s : State) (r : List Byte) : (respondOK s r).cmdStream = s.cmdStream := rfl
@[simp] theorem respondOK_rspStream (s : State) (r : List Byte) : (respondOK s r).rspStream = s.rspStream := rfl
@[simp] theorem respondOK_host (s : State) (r : List Byte) : (respondOK s r).host = s.host := rfl
@[simp] theorem respondOK_draws (s : State) (r : List Byte) : (respondOK s r).draws = s.draws := rfl

@[simp] theorem raiseError_key (s : State) (e : ErrorKind) : (raiseError s e).key = s.key := rfl
@[simp] theorem raiseError_keyv (s : State) (e : ErrorKind) : (raiseError s e).keyv = s.keyv := rfl
@[simp] theorem raiseError_rx (s : State) (e : ErrorKind) : (raiseError s e).rx = s.rx := rfl
@[simp] theorem raiseError_tx (s : State) (e : ErrorKind) : (raiseError s e).tx = s.tx ++ errFrame e := rfl
@[simp] theorem raiseError_cmdStream (s : State) (e : ErrorKind) : (raiseError s e).cmdStream = s.cmdStream := rfl
@[simp] theorem raiseError_rspStream (s : State) (e : ErrorKind) : (raiseError s e).rspStream = s.rspStream := rfl
@[simp] theorem raiseError_host (s : State) (e : ErrorKind) : (raiseError s e).host = s.host := rfl
@[simp] theorem raiseError_draws (s : State) (e : ErrorKind) : (raiseError s e).draws = s.draws := rfl

@[simp] theorem takeCommandByte_key (s : State) (b : Byte) : (takeCommandByte s b).key = s.key := rfl
@[simp] theorem takeCommandByte_keyv (s : State) (b : Byte) : (takeCommandByte s b).keyv = s.keyv := rfl
@[simp] theorem takeCommandByte_rx (s : State) (b : Byte) : (takeCommandByte s b).rx = s.rx ++ [b] := rfl
@[simp] theorem takeCommandByte_tx (s : State) (b : Byte) : (takeCommandByte s b).tx = s.tx := rfl
@[simp] theorem takeCommandByte_cmdStream (s : State) (b : Byte) : (takeCommandByte s b).cmdStream = s.cmdStream ++ [b] := rfl
@[simp] theorem takeCommandByte_rspStream (s : State) (b : Byte) : (takeCommandByte s b).rspStream = s.rspStream := rfl
@[simp] theorem takeCommandByte_host (s : State) (b : Byte) : (takeCommandByte s b).host = s.host := rfl
@[simp] theorem takeCommandByte_draws (s : State) (b : Byte) : (takeCommandByte s b).draws = s.draws := rfl

@[simp] theorem dropFrame_key (s : State) (rest : List Byte) : (dropFrame s rest).key = s.key := rfl
@[simp] theorem dropFrame_keyv (s : State) (rest : List Byte) : (dropFrame s rest).keyv = s.keyv := rfl
@[simp] theorem dropFrame_rx (s : State) (rest : List Byte) : (dropFrame s rest).rx = rest := rfl
@[simp] theorem dropFrame_tx (s : State) (rest : List Byte) : (dropFrame s rest).tx = s.tx := rfl
@[simp] theorem dropFrame_cmdStream (s : State) (rest : List Byte) : (dropFrame s rest).cmdStream = s.cmdStream := rfl
@[simp] theorem dropFrame_rspStream (s : State) (rest : List Byte) : (dropFrame s rest).rspStream = s.rspStream := rfl
@[simp] theorem dropFrame_host (s : State) (rest : List Byte) : (dropFrame s rest).host = s.host := rfl
@[simp] theorem dropFrame_draws (s : State) (rest : List Byte) : (dropFrame s rest).draws = s.draws := rfl

@[simp] theorem fresh_key (k : Key) (n : Nat) (h : List Moment) : (State.fresh k n h).key = k := rfl
@[simp] theorem fresh_keyv (k : Key) (n : Nat) (h : List Moment) : (State.fresh k n h).keyv = false := rfl
@[simp] theorem fresh_rx (k : Key) (n : Nat) (h : List Moment) : (State.fresh k n h).rx = [] := rfl
@[simp] theorem fresh_tx (k : Key) (n : Nat) (h : List Moment) : (State.fresh k n h).tx = [] := rfl
@[simp] theorem fresh_cmdStream (k : Key) (n : Nat) (h : List Moment) : (State.fresh k n h).cmdStream = [] := rfl
@[simp] theorem fresh_rspStream (k : Key) (n : Nat) (h : List Moment) : (State.fresh k n h).rspStream = [] := rfl
@[simp] theorem fresh_host (k : Key) (n : Nat) (h : List Moment) : (State.fresh k n h).host = h := rfl
@[simp] theorem fresh_draws (k : Key) (n : Nat) (h : List Moment) : (State.fresh k n h).draws = n := rfl

@[simp] theorem assertReset_key (s : State) : (assertReset s).key = Config.freeKey s.draws := rfl
@[simp] theorem assertReset_keyv (s : State) : (assertReset s).keyv = false := rfl
@[simp] theorem assertReset_rx (s : State) : (assertReset s).rx = [] := rfl
@[simp] theorem assertReset_tx (s : State) : (assertReset s).tx = [] := rfl
@[simp] theorem assertReset_cmdStream (s : State) : (assertReset s).cmdStream = [] := rfl
@[simp] theorem assertReset_rspStream (s : State) : (assertReset s).rspStream = [] := rfl
@[simp] theorem assertReset_host (s : State) : (assertReset s).host = s.host := rfl
@[simp] theorem assertReset_draws (s : State) : (assertReset s).draws = s.draws + 1 := rfl

end Sys2Proof.Machine
end

