-- ==== Sys2Proof/Laws/Commands.lean ====
section
/-! SUPPORT. Everything a command can answer: one lemma per shared operation, and one for `exec` and `transact`. -/

namespace Sys2Proof.Machine

/-- A data command with a key installed answers its result (R191 to R194). -/
theorem dataCommand_installed {s : State} {f : Bits → Except Stop (List Byte)} {rs : List Byte} (hk : s.keyv = true)
    (hf : f (bitsOfKey s.key) = .ok rs) : dataCommand s f = .next (respondOK s rs) := by
  simp [dataCommand, keyInstalled, hk, readKey, hf]

/-- A data command with no key installed answers `KeyNotSet` (R226). -/
theorem dataCommand_unset {s : State} (f : Bits → Except Stop (List Byte)) (hk : s.keyv = false) :
    dataCommand s f = .next (raiseError s .keyNotSet) := by
  simp [dataCommand, keyInstalled, hk]

/-- A data command whose internal function raises answers that error (R228). -/
theorem dataCommand_raise {s : State} {f : Bits → Except Stop (List Byte)} {e : ErrorKind} (hk : s.keyv = true)
    (hf : f (bitsOfKey s.key) = .error (.raise e)) : dataCommand s f = .next (raiseError s e) := by
  simp [dataCommand, keyInstalled, hk, readKey, hf, stopCommand]

/-- A data command whose function answers on every key answers, and what it appends depends on `KEY` and `KEYV` alone (R29). -/
theorem dataCommand_answer {f : Bits → Except Stop (List Byte)} {bound : Nat}
    (hf : ∀ key : Bits, key.length = 10 → ∃ rs, f key = .ok rs ∧ rs.length ≤ bound) (key : Key) (keyv : Bool) :
    ∃ (status : Byte) (result : List Byte), result.length ≤ bound ∧
      ∀ s : State, s.key = key → s.keyv = keyv → dataCommand s f = .next (emit s (responseFrame status result)) := by
  cases keyv with
  | false => exact ⟨_, [], Nat.zero_le _, fun s _ hv => dataCommand_unset f hv⟩
  | true =>
    obtain ⟨rs, hrs, hl⟩ := hf (bitsOfKey key) (bitsOfKey_length key)
    exact ⟨_, rs, hl, fun s hk hv => dataCommand_installed hv (by rw [hk]; exact hrs)⟩

/-- LOADKEY on a valid key string (R190). -/
theorem loadkeyWith_valid {c : Config} {p : List Byte} (s : State) (h : validKeyString c p = true) :
    loadkeyWith c p s = .next (respondOK (installKey s (keyOfString c p)) []) := by
  simp [loadkeyWith, h]

/-- LOADKEY on any other key string (R190, R222). -/
theorem loadkeyWith_invalid {c : Config} {p : List Byte} (s : State) (h : validKeyString c p = false) :
    loadkeyWith c p s = .next (raiseError (failedLoad c s) .invalidKeyFormat) := by
  simp [loadkeyWith, h]

/-- LOADKEY is its meaning on the engine's parameters (R190). -/
theorem exec_loadkey (p : List Byte) (s : State) : exec (.loadkey p) s = loadkeyWith engine p s := rfl

/-- ENCB with a key installed answers the encrypted byte (R191). -/
theorem exec_encb_installed {d r : Byte} {s : State} (hk : s.keyv = true) (hr : encryptByte engine d (bitsOfKey s.key) = .ok r) :
    exec (.encb d) s = .next (respondOK s [r]) := by
  simp only [exec, execEncb, encbWith]
  exact dataCommand_installed hk (by rw [hr]; rfl)

/-- DECB with a key installed answers the decrypted byte (R192). -/
theorem exec_decb_installed {d r : Byte} {s : State} (hk : s.keyv = true) (hr : decryptByte engine d (bitsOfKey s.key) = .ok r) :
    exec (.decb d) s = .next (respondOK s [r]) := by
  simp only [exec, execDecb, decbWith]
  exact dataCommand_installed hk (by rw [hr]; rfl)

/-- ENCM with a key installed answers the encrypted bytes (R193). -/
theorem exec_encm_installed {p rs : List Byte} {s : State} (hk : s.keyv = true)
    (hr : encryptBytes engine p (bitsOfKey s.key) = .ok rs) : exec (.encm p) s = .next (respondOK s rs) :=
  dataCommand_installed hk hr

/-- DECM with a key installed answers the decrypted bytes (R194). -/
theorem exec_decm_installed {p rs : List Byte} {s : State} (hk : s.keyv = true)
    (hr : decryptBytes engine p (bitsOfKey s.key) = .ok rs) : exec (.decm p) s = .next (respondOK s rs) :=
  dataCommand_installed hk hr

/-- A frame that is a command runs it (R195). -/
theorem transact_command {f : Frame} {i : Instr} (s : State) (h : decodeFrame f = .ok i) : transact f s = exec i s := by
  simp [transact, h]

/-- A frame that is none answers `IllegalCommand` (R70, R71). -/
theorem transact_illegal {f : Frame} {why : Illegal} (s : State) (h : decodeFrame f = .error why) :
    transact f s = .next (raiseError s .illegalCommand) := by
  simp [transact, h]

/-- Every command answers, with one response, and what it writes and appends depends on `KEY`, `KEYV` and the count of draws alone. -/
theorem exec_answer (i : Instr) (key : Key) (keyv : Bool) (draws : Nat) :
    ∃ (k : Key) (v : Bool) (n : Nat) (status : Byte) (result : List Byte), result.length ≤ i.payload.length ∧
      ∀ s : State, s.key = key → s.keyv = keyv → s.draws = draws →
        exec i s = .next { s with key := k, keyv := v, draws := n, tx := s.tx ++ responseFrame status result } := by
  cases i with
  | loadkey p =>
    cases hv : validKeyString engine p with
    | true =>
      refine ⟨keyOfString engine p, true, draws, codeOK, [], Nat.zero_le _, fun s _ _ hd => ?_⟩
      simp only [exec, execLoadkey, loadkeyWith_valid s hv]
      simp [respondOK, emit, installKey, okFrame, ← hd]
    | false =>
      refine ⟨Config.freeKey draws, false, draws + 1, ErrorKind.code .invalidKeyFormat, [], Nat.zero_le _, fun s _ _ hd => ?_⟩
      simp only [exec, execLoadkey, loadkeyWith_invalid s hv]
      simp [raiseError, emit, failedLoad, engine, clearKey, errFrame, ← hd]
  | encb d =>
    obtain ⟨st, rs, hl, h⟩ := dataCommand_answer (bound := 1) (f := fun key => do
      let r ← encryptByte engine d key
      .ok [r]) (fun key hk => by
        obtain ⟨r, hr⟩ := encryptByte_ok engine d hk
        exact ⟨[r], by simp [hr], by simp⟩) key keyv
    exact ⟨key, keyv, draws, st, rs, hl, fun s hk hv hd => by
      subst hk hv hd
      exact h s rfl rfl⟩
  | decb d =>
    obtain ⟨st, rs, hl, h⟩ := dataCommand_answer (bound := 1) (f := fun key => do
      let r ← decryptByte engine d key
      .ok [r]) (fun key hk => by
        obtain ⟨r, hr⟩ := decryptByte_ok engine d hk
        exact ⟨[r], by simp [hr], by simp⟩) key keyv
    exact ⟨key, keyv, draws, st, rs, hl, fun s hk hv hd => by
      subst hk hv hd
      exact h s rfl rfl⟩
  | encm p =>
    obtain ⟨st, rs, hl, h⟩ := dataCommand_answer (bound := p.length) (f := encryptBytes engine p) (fun key hk => by
      obtain ⟨rs, hr, hl⟩ := encryptBytes_ok engine p hk
      exact ⟨rs, hr, le_of_eq hl⟩) key keyv
    exact ⟨key, keyv, draws, st, rs, hl, fun s hk hv hd => by
      subst hk hv hd
      exact h s rfl rfl⟩
  | decm p =>
    obtain ⟨st, rs, hl, h⟩ := dataCommand_answer (bound := p.length) (f := decryptBytes engine p) (fun key hk => by
      obtain ⟨rs, hr, hl⟩ := decryptBytes_ok engine p hk
      exact ⟨rs, hr, le_of_eq hl⟩) key keyv
    exact ⟨key, keyv, draws, st, rs, hl, fun s hk hv hd => by
      subst hk hv hd
      exact h s rfl rfl⟩

/-- The command a frame decodes to has the frame's payload. -/
theorem decodeFrame_payload {f : Frame} {i : Instr} (h : decodeFrame f = .ok i) : i.payload = f.payload := by
  have one : ∀ {make : Byte → Instr}, (∀ d, (make d).payload = [d]) → oneByte f.op make f.payload = .ok i →
      i.payload = f.payload := by
    intro make hm ho
    unfold oneByte at ho
    split at ho
    · cases ho
      rename_i hp
      rw [hm, hp]
    · cases ho
  simp only [decodeFrame] at h
  split_ifs at h
  · cases h; rfl
  · exact one (fun _ => rfl) h
  · exact one (fun _ => rfl) h
  · cases h; rfl
  · cases h; rfl

/-- Every frame gets one response, and what it writes and appends depends on `KEY`, `KEYV` and the count of draws alone (R62, R196). -/
theorem transact_answer (f : Frame) (key : Key) (keyv : Bool) (draws : Nat) :
    ∃ (k : Key) (v : Bool) (n : Nat) (status : Byte) (result : List Byte), result.length ≤ f.payload.length ∧
      ∀ s : State, s.key = key → s.keyv = keyv → s.draws = draws →
        transact f s = .next { s with key := k, keyv := v, draws := n, tx := s.tx ++ responseFrame status result } := by
  cases hd : decodeFrame f with
  | ok i =>
    obtain ⟨k, v, n, st, rs, hl, h⟩ := exec_answer i key keyv draws
    exact ⟨k, v, n, st, rs, decodeFrame_payload hd ▸ hl, fun s h1 h2 h3 => by simpa [transact, hd] using h s h1 h2 h3⟩
  | error e =>
    exact ⟨key, keyv, draws, ErrorKind.code .illegalCommand, [], Nat.zero_le _, fun s h1 h2 h3 => by
      simp [transact, hd, raiseError, emit, errFrame, ← h1, ← h2, ← h3]⟩

/-- A run of frames, the first of which is answered, goes on with the rest (R270). -/
theorem runFrames_cons {f : Frame} {s t : State} (fs : List Frame) (h : transact f s = .next t) :
    runFrames (f :: fs) s = runFrames fs t := by
  simp [runFrames, h]

/-- A run of frames goes on from where its first part ended (R270). -/
theorem runFrames_append {fs : List Frame} {s t : State} (gs : List Frame) (h : runFrames fs s = .next t) :
    runFrames (fs ++ gs) s = runFrames gs t := by
  induction fs generalizing s with
  | nil =>
    cases h
    rfl
  | cons f fs ih =>
    simp only [runFrames, List.cons_append] at h ⊢
    split at h
    · exact ih h
    · cases h
    · cases h

end Sys2Proof.Machine
end

