-- ==== Sys2Proof/Laws/Decode.lean ====
section
/-! SUPPORT. What cutting a stream into frames can answer (R65). -/

namespace Sys2Proof

/-- The length byte holds every length up to `LEN_MAX`. -/
theorem lengthByte_toNat {n : Nat} (h : n ≤ lenMax) : (BitVec.ofNat 8 n).toNat = n := by
  simp only [BitVec.toNat_ofNat]
  exact Nat.mod_eq_of_lt (Nat.lt_succ_of_le h)

/-- A byte is the length byte of its own value. -/
theorem lengthByte_of_toNat (b : Byte) : BitVec.ofNat 8 b.toNat = b := by simp

/-- What a frame that was cut off looks like in the stream. -/
theorem cutFrame_some {bytes rest : List Byte} {f : Frame} (h : cutFrame bytes = some (f, rest)) :
    bytes = encodeFrame f ++ rest ∧ f.payload.length ≤ lenMax := by
  obtain _ | ⟨op, _ | ⟨len, tail⟩⟩ := bytes
  · simp [cutFrame] at h
  · simp [cutFrame] at h
  · by_cases hle : len.toNat ≤ tail.length
    · simp only [cutFrame, hle, if_true, Option.some.injEq, Prod.mk.injEq] at h
      obtain ⟨rfl, rfl⟩ := h
      have hlen : (tail.take len.toNat).length = len.toNat := by simp [hle]
      refine ⟨?_, by rw [hlen]; exact Nat.le_of_lt_succ len.isLt⟩
      simp only [encodeFrame, hlen, lengthByte_of_toNat, List.cons_append, List.take_append_drop]
    · simp [cutFrame, hle] at h

/-- A frame at the head of a stream is cut off whole, and only it. -/
theorem cutFrame_encodeFrame {f : Frame} (h : f.payload.length ≤ lenMax) (rest : List Byte) :
    cutFrame (encodeFrame f ++ rest) = some (f, rest) := by
  simp [cutFrame, encodeFrame, Nat.mod_eq_of_lt (Nat.lt_succ_of_le h)]

/-- The three shapes of what `oneByte` answers (R71). -/
theorem oneByte_ok {op : Byte} {make : Byte → Instr} {p : List Byte} {i : Instr} (h : oneByte op make p = .ok i) :
    ∃ d, p = [d] ∧ i = make d := by
  obtain _ | ⟨d, _ | ⟨e, t⟩⟩ := p
  · simp [oneByte] at h
  · exact ⟨d, rfl, by simpa [oneByte] using h.symm⟩
  · simp [oneByte] at h

/-- A payload that is not one byte is refused (R71). -/
theorem oneByte_error {p : List Byte} (op : Byte) (make : Byte → Instr) (h : p.length ≠ 1) :
    oneByte op make p = .error (.length op p.length) := by
  obtain _ | ⟨d, _ | ⟨e, t⟩⟩ := p
  · rfl
  · simp at h
  · rfl

/-- An opcode that R67 does not assign is refused (R70). -/
theorem decodeFrame_unassigned {f : Frame} (h1 : f.op ≠ opLoadkey) (h2 : f.op ≠ opEncb) (h3 : f.op ≠ opDecb)
    (h4 : f.op ≠ opEncm) (h5 : f.op ≠ opDecm) : decodeFrame f = .error (.opcode f.op) := by
  simp [decodeFrame, h1, h2, h3, h4, h5]

/-- Two 16-bit words made of bytes are equal byte by byte. -/
theorem append_bytes_inj (a b c d : Byte) : a ++ b = c ++ d ↔ a = c ∧ b = d := by
  constructor
  · intro h
    have h' := congrArg BitVec.toNat h
    rw [BitVec.toNat_append, BitVec.toNat_append, ← Nat.shiftLeft_add_eq_or_of_lt b.isLt,
      ← Nat.shiftLeft_add_eq_or_of_lt d.isLt, Nat.shiftLeft_eq, Nat.shiftLeft_eq] at h'
    have hb := b.isLt
    have hd := d.isLt
    exact ⟨BitVec.eq_of_toNat_eq (by omega), BitVec.eq_of_toNat_eq (by omega)⟩
  · rintro ⟨rfl, rfl⟩
    rfl

/-- A bitwise and of two 16-bit words made of bytes is taken byte by byte. -/
theorem append_bytes_and (a b c d : Byte) : (a ++ b) &&& (c ++ d) = (a &&& c) ++ (b &&& d) := by
  apply BitVec.eq_of_getLsbD_eq
  intro i _
  rw [BitVec.getLsbD_and, BitVec.getLsbD_append, BitVec.getLsbD_append, BitVec.getLsbD_append]
  split <;> simp

/-- A table row matches a header word when its mask and pattern match byte 0 and byte 1. -/
theorem rowMatches_bytes (name : String) (maskOp maskLen patOp patLen op len : Byte) :
    rowMatches ⟨name, maskOp ++ maskLen, patOp ++ patLen⟩ (headerWord op len) =
      decide (op &&& maskOp = patOp ∧ len &&& maskLen = patLen) := by
  rw [← Bool.coe_iff_coe]
  simp only [rowMatches, headerWord, beq_iff_eq, decide_eq_true_eq]
  rw [← append_bytes_inj, ← append_bytes_and]

end Sys2Proof
end

