-- ==== Sys2Proof/Laws/PerInstr.lean ====
section
/-! SUPPORT. Statements about every command as syntax, one lemma per constructor. -/

namespace Sys2Proof.Laws.EncodedShape

/-- The frame of a command begins with its opcode and its length byte, then holds its operand bytes: `LEN + 2` bytes (R65). -/
def Statement (i : Instr) : Prop :=
  encode i = i.op :: BitVec.ofNat 8 i.payload.length :: i.payload ∧ (encode i).length = i.payload.length + 2

theorem loadkey (payload : List Byte) : Statement (.loadkey payload) := ⟨rfl, rfl⟩

theorem encb (d : Byte) : Statement (.encb d) := ⟨rfl, rfl⟩

theorem decb (d : Byte) : Statement (.decb d) := ⟨rfl, rfl⟩

theorem encm (payload : List Byte) : Statement (.encm payload) := ⟨rfl, rfl⟩

theorem decm (payload : List Byte) : Statement (.decm payload) := ⟨rfl, rfl⟩

end Sys2Proof.Laws.EncodedShape
end

