-- ==== Sys2Proof/Laws/Step.lean ====
section
/-! SUPPORT. Everything one step and one moment of the interface can do. -/

namespace Sys2Proof.Machine

/-- What one moment can do: reset, a response byte leaves, a command byte arrives, or nothing (R60 to R62, R260). -/
theorem interfaceMoment_cases (m : Moment) (s : State) :
    (m.rst = true ∧ interfaceMoment m s = assertReset s) ∨
    (m.rst = false ∧ ∃ b rest, s.tx = b :: rest ∧ m.rspReady = true ∧
      interfaceMoment m s = { s with tx := rest, rspStream := s.rspStream ++ [b] }) ∨
    (m.rst = false ∧ ∃ b, s.tx = [] ∧ cutFrame s.rx = none ∧ m.cmd = some b ∧
      interfaceMoment m s = takeCommandByte s b) ∨
    (m.rst = false ∧ interfaceMoment m s = s) := by
  cases hr : m.rst with
  | true => exact .inl ⟨rfl, by simp [interfaceMoment, hr]⟩
  | false =>
    right
    cases ht : s.tx with
    | cons b rest =>
      cases hy : m.rspReady with
      | true =>
        exact .inl ⟨rfl, b, rest, rfl, rfl, by
          simp [interfaceMoment, hr, State.rspValid, ht, responseChannel, hy, sendResponseByte]⟩
      | false =>
        exact .inr (.inr ⟨rfl, by simp [interfaceMoment, hr, State.rspValid, ht, responseChannel, hy]⟩)
    | nil =>
      cases hm : m.cmd with
      | none => exact .inr (.inr ⟨rfl, by simp [interfaceMoment, hr, State.rspValid, ht, commandChannel, hm]⟩)
      | some b =>
        cases hc : cutFrame s.rx with
        | none =>
          exact .inr (.inl ⟨rfl, b, rfl, rfl, rfl, by
            simp [interfaceMoment, hr, State.rspValid, ht, commandChannel, hm, State.cmdReady, frameComplete, hc]⟩)
        | some fr =>
          exact .inr (.inr ⟨rfl, by
            simp [interfaceMoment, hr, State.rspValid, ht, commandChannel, hm, State.cmdReady, frameComplete, hc]⟩)

/-- What one step can do: wait for the host, or execute the frame that is complete (R62). -/
theorem step_shape (s : State) :
    ((s.tx ≠ [] ∨ cutFrame s.rx = none) ∧ step s = waitForHost s) ∨
    (∃ f rest, s.tx = [] ∧ cutFrame s.rx = some (f, rest) ∧ step s = transact f (dropFrame s rest)) := by
  cases ht : s.tx with
  | cons b tl => exact .inl ⟨.inl (by simp), by simp [step, ht]⟩
  | nil =>
    cases hc : cutFrame s.rx with
    | none => exact .inl ⟨.inr rfl, by simp [step, ht, hc]⟩
    | some fr => exact .inr ⟨fr.1, fr.2, rfl, rfl, by simp [step, ht, hc]⟩

/-- Waiting takes one moment of the host's list, or is stuck where the list has ended (R64). -/
theorem waitForHost_cases (s : State) :
    (∃ m rest, s.host = m :: rest ∧ waitForHost s = .next (interfaceMoment m { s with host := rest })) ∨
    (s.host = [] ∧ s.tx = [] ∧ waitForHost s = .fault .stuckAwaitingCommand) ∨
    (s.host = [] ∧ s.tx ≠ [] ∧ waitForHost s = .fault .stuckAwaitingHost) := by
  cases hh : s.host with
  | cons m rest => exact .inl ⟨m, rest, rfl, by simp [waitForHost, hh]⟩
  | nil =>
    cases ht : s.tx with
    | nil => exact .inr (.inl ⟨rfl, rfl, by simp [waitForHost, hh, State.rspValid, ht]⟩)
    | cons b tl => exact .inr (.inr ⟨rfl, by simp, by simp [waitForHost, hh, State.rspValid, ht]⟩)

/-- The inversion of a step that answers a next state. -/
theorem step_next {s t : State} (h : step s = .next t) :
    (∃ m rest, s.host = m :: rest ∧ (s.tx ≠ [] ∨ cutFrame s.rx = none) ∧ t = interfaceMoment m { s with host := rest }) ∨
    (∃ f rest, s.tx = [] ∧ cutFrame s.rx = some (f, rest) ∧ transact f (dropFrame s rest) = .next t) := by
  obtain ⟨hw, e⟩ | ⟨f, rest, ht, hc, e⟩ := step_shape s
  · obtain ⟨m, rest, hh, e'⟩ | ⟨_, _, e'⟩ | ⟨_, _, e'⟩ := waitForHost_cases s
    · exact .inl ⟨m, rest, hh, hw, by rw [e, e'] at h; cases h; rfl⟩
    · rw [e, e'] at h; cases h
    · rw [e, e'] at h; cases h
  · exact .inr ⟨f, rest, ht, hc, by rw [← e, h]⟩

end Sys2Proof.Machine
end

