-- ==== Sys2Proof/Tests/Slice0.lean ====
section
/-! SUPPORT. Small checks whose expected results are the spec's own words, frames and vectors (95_test_vectors.md), and a witness for the
hypotheses of each obligation. Values marked (S) there rest on the default S-boxes (log entry 4). -/

namespace Sys2Proof.Tests

open Sys2Proof Sys2Proof.Machine

/-- Key A, `1010000010`, installed. -/
def stateA : State := { State.fresh 0b1010000010 0 [] with keyv := true }

/-- No key installed. -/
def noKey : State := State.fresh 0b0000000000 0 []

/-- The response bytes after an outcome. -/
def txOf : Host.Outcome State Fault Refusal → Option (List Byte)
  | .next s => some s.tx
  | _ => none

/-- `KEYV` after an outcome, and `KEY` where a key is installed. -/
def keyOf : Host.Outcome State Fault Refusal → Option (Option Key)
  | .next s => some (if s.keyv then some s.key else none)
  | _ => none

/-- A moment at which the host offers a byte and takes none. -/
def offer (b : Byte) : Moment := ⟨false, some b, false⟩

/-- A moment at which the host takes a response byte. -/
def take : Moment := ⟨false, none, true⟩

/-! ### Well-formed commands -/

theorem test_wf_loadkey_refuses_256 : (Instr.loadkey (List.replicate 256 0)).wf = false := by
  simp only [Instr.wf, fitsFrame, List.length_replicate]; decide
theorem test_wf_encm_refuses_256 : (Instr.encm (List.replicate 256 0)).wf = false := by
  simp only [Instr.wf, fitsFrame, List.length_replicate]; decide
theorem test_wf_decm_refuses_256 : (Instr.decm (List.replicate 256 0)).wf = false := by
  simp only [Instr.wf, fitsFrame, List.length_replicate]; decide
theorem test_wf_accepts_255 : (Instr.encm (List.replicate 255 0)).wf = true := by
  simp only [Instr.wf, fitsFrame, List.length_replicate]; decide
theorem test_wf_single_bytes : (Instr.encb 0xFF).wf = true ∧ (Instr.decb 0x00).wf = true := by decide

/-! ### Frames, byte by byte from R65 to R69 -/

theorem test_decode_loadkey :
    decode [0b00000001, 0b00000101, 0x31, 0x30, 0x31, 0x30, 0x31] = .ok (.loadkey [0x31, 0x30, 0x31, 0x30, 0x31], []) := by
  decide
theorem test_decode_encb : decode [0b00000010, 0b00000001, 0b10111101] = .ok (.encb 0xBD, []) := by decide
theorem test_decode_decb : decode [0b00000011, 0b00000001, 0b01110101] = .ok (.decb 0x75, []) := by decide
theorem test_decode_encm : decode [0b00000100, 0b00000010, 0x69, 0x21] = .ok (.encm [0x69, 0x21], []) := by decide
theorem test_decode_decm : decode [0b00000101, 0b00000000] = .ok (.decm [], []) := by decide

/-- Vector V-C24's framing check: the payload of an illegal command is never read as an opcode. -/
theorem test_framing_of_illegal_frame :
    cutFrame [0x07, 0x02, 0xAA, 0xBB, 0x02, 0x01, 0x00] = some (⟨0x07, [0xAA, 0xBB]⟩, [0x02, 0x01, 0x00]) := by decide
theorem test_decode_reserved_zero : decode [0x00, 0x00] = .error (.illegal (.opcode 0x00)) := by decide
theorem test_decode_encb_two_bytes : decode [0x02, 0x02, 0x00, 0x01] = .error (.illegal (.length 0x02 2)) := by decide
theorem test_decode_incomplete : decode [0x04, 0x02, 0x69] = .error .incomplete := by decide
theorem test_encode_decm : encode (.decm [0xE0, 0xC7, 0x29]) = [0x05, 0x03, 0xE0, 0xC7, 0x29] := by decide
theorem test_table_word_encb : decodeTableWord 16 0x0201 = some (.encb 0x00) := by decide
theorem test_table_word_loadkey : decodeTableWord 16 0x0102 = some (.loadkey [0x00, 0x00]) := by decide
theorem test_table_word_reserved : decodeTableWord 16 0x0600 = none := by decide
theorem test_placed_words_run :
    txOf (step (State.reset.withFetchWord 16 0x0201)) = some [0x05, 0x00] ∧
    txOf (step (State.reset.withFetchWord 16 0x0100)) = some [0x01, 0x00] ∧
    txOf (step (State.reset.withFetchWord 16 0x0403)) = some [0x05, 0x00] := by decide

/-! ### The internal functions, vectors of section 2 -/

theorem test_vA6_length_mismatch :
    xorBits [true, false, true, false] [true, false, true, false, false, true, false, false] = .error (.raise .lengthMismatch) := by
  decide
theorem test_vA14_no_sign_smear :
    byteToBits 0x80 8 = .ok [true, false, false, false, false, false, false, false] := by decide
theorem test_vA16_low_bits : byteToBits 0xFE 2 = .ok [true, false] := by decide
theorem test_vA10_unsigned : bitsToByte (List.replicate 8 true) = .ok 0xFF := by decide
theorem test_vP16_out_of_range : applyTable [false, true, false, true] [0, 4] = .error (.raise .indexOutOfRange) := by decide
theorem test_negative_entry_out_of_range : applyTable [false, true] [-1] = .error (.raise .indexOutOfRange) := by decide
theorem test_vS7_vS8_wrong_length :
    sbox0 engine [true, false, true] = .error (.raise .invalidSBoxInput) ∧
    sbox0 engine [true, false, true, false, false] = .error (.raise .invalidSBoxInput) := by decide
theorem test_vS5_vS6_spot_values :
    sbox0 engine [true, false, false, true] = .ok [true, true] ∧ sbox1 engine [false, true, true, false] = .ok [true, true] := by
  decide
theorem test_vF3_feistel :
    feistel engine [true, false, true, false, false, true, false, false] [true, true, true, false] =
      .ok [true, false, true, true] := by decide
theorem test_vR6_right_half_unchanged :
    roundBlock engine (List.replicate 8 true) [true, false, true, false, false, true, false, false] =
      .ok [false, false, true, true, true, true, true, true] := by decide

/-! ### One step of each command, vectors of section 2.9 -/

theorem test_vC1_loadkey :
    keyOf (exec (.loadkey [0x31, 0x30, 0x31, 0x30, 0x30, 0x30, 0x30, 0x30, 0x31, 0x30]) noKey) = some (some 0b1010000010) ∧
    txOf (exec (.loadkey [0x31, 0x30, 0x31, 0x30, 0x30, 0x30, 0x30, 0x30, 0x31, 0x30]) noKey) = some [0x00, 0x00] := by decide
theorem test_vC6_vC9_loadkey_fails :
    keyOf (exec (.loadkey [0x31, 0x30, 0x31, 0x30, 0x30, 0x30, 0x30, 0x30, 0x31, 0xB0]) stateA) = some none ∧
    txOf (exec (.loadkey [0x31, 0x30, 0x31, 0x30, 0x31]) stateA) = some [0x01, 0x00] := by decide
theorem test_vC10_vC11_encb :
    txOf (exec (.encb 0x00) stateA) = some [0x00, 0x01, 0xCE] ∧ txOf (exec (.encb 0x00) noKey) = some [0x05, 0x00] := by decide
theorem test_vB9_encb : txOf (exec (.encb 0xBD) stateA) = some [0x00, 0x01, 0x75] := by decide
theorem test_vC15_vC16_decb :
    txOf (exec (.decb 0xCE) stateA) = some [0x00, 0x01, 0x00] ∧ txOf (exec (.decb 0xCE) noKey) = some [0x05, 0x00] := by decide
theorem test_vB3_decb : txOf (exec (.decb 0x80) stateA) = some [0x00, 0x01, 0xD4] := by decide
theorem test_vC17_vC20_encm :
    txOf (exec (.encm [0x48, 0x69, 0x21]) stateA) = some [0x00, 0x03, 0xE0, 0xC7, 0x29] ∧
    txOf (exec (.encm [0x48, 0x69]) noKey) = some [0x05, 0x00] := by decide
theorem test_vC18_vC19_empty_encm :
    txOf (exec (.encm []) stateA) = some [0x00, 0x00] ∧ txOf (exec (.encm []) noKey) = some [0x05, 0x00] := by decide
theorem test_vC21_decm : txOf (exec (.decm [0xE0, 0xC7, 0x29]) stateA) = some [0x00, 0x03, 0x48, 0x69, 0x21] := by decide
theorem test_vC22_decm : txOf (exec (.decm [0x00]) noKey) = some [0x05, 0x00] := by decide
theorem test_vC14_frame_check_first : txOf (transact ⟨0x02, [0x00, 0x01]⟩ noKey) = some [0x06, 0x00] := by decide

/-! ### The channels -/

theorem test_step_executes_a_complete_frame : txOf (step { stateA with rx := [0x02, 0x01, 0x00] }) = some [0x00, 0x01, 0xCE] := by
  decide
theorem test_step_takes_a_command_byte :
    step { noKey with host := [offer 0x02] } = .next { noKey with rx := [0x02], cmdStream := [0x02] } := rfl
theorem test_step_sends_a_response_byte :
    step { noKey with tx := [0x05, 0x00], host := [take] } = .next { noKey with tx := [0x00], rspStream := [0x05] } := rfl
theorem test_step_not_ready_while_responding :
    step { noKey with tx := [0x00], host := [offer 0x02] } = .next { noKey with tx := [0x00] } := rfl
theorem test_step_stuck_inside_a_frame : step { noKey with rx := [0x02, 0x01] } = .fault .stuckAwaitingCommand := rfl
theorem test_step_reset_drops_everything :
    step { stateA with rx := [0x02], cmdStream := [0x02], host := [⟨true, some 0x01, true⟩] } =
      .next (State.fresh (Config.freeKey 0) 1 []) := rfl

/-! ### The text of commands -/

theorem test_assemble_two_byte_encb : assembleLine "ENCB 0, 0".toList = .ok [⟨0x02, [0x00, 0x00]⟩] := by decide
theorem test_assemble_wide_key_character : assembleLine "LOADKEY \"\u0130\"".toList = .error .wideCharacter := by decide
theorem test_assemble_truncated_text : assembleLine "ENCS \"\u20AC\"".toList = .ok [⟨0x04, [0xAC]⟩] := by decide
theorem test_assemble_number_too_big : assembleLine "ENCB 256".toList = .error .badNumber := by decide

/-! ### Witnesses: the hypotheses of each obligation are met together, clause by clause -/

theorem witness_LeftHalfTakesFirstHalf : ([] : Bits).length % 2 = 0 ∧ [true, false].length % 2 = 0 ∧ [true].length % 2 = 1 := by decide
theorem witness_RightHalfTakesSecondHalf : ([] : Bits).length % 2 = 0 ∧ [true, false].length % 2 = 0 ∧ [true].length % 2 = 1 := by
  decide
theorem witness_XorIsElementwiseOnEqualLengths : [true].length = [false].length ∧ [true].length ≠ [false, true].length := by decide
theorem witness_BitsToByteReadsBigEndian : (List.replicate 8 true).length ≤ 8 ∧ 8 < (List.replicate 9 true).length := by decide
theorem witness_ByteToBitsReadsLowBits :
    (8 : Nat) ≤ 8 ∧ (8 : Nat) < 9 ∧ (List.replicate 8 true).length = 8 := by decide
theorem witness_ApplyTableSelectsPositions :
    (∀ t ∈ [(0 : Int), 1], 0 ≤ t ∧ t < [true, false].length) ∧ (∃ t ∈ [(2 : Int)], t < 0 ∨ [true, false].length ≤ t) ∧
      (∃ t ∈ [(-1 : Int)], t < 0 ∨ [true, false].length ≤ t) := by decide
theorem witness_NoTableIsOutOfRange :
    (List.replicate 8 true).length = 8 ∧ (List.replicate 4 true).length = 4 ∧ (List.replicate 10 true).length = 10 := by decide
theorem witness_InitialPermutationsAreInverse :
    (List.replicate 8 true).length = 8 ∧ (List.replicate 4 true).length = 4 ∧
      applyTable (List.replicate 4 true) tableEP = applyTable (List.replicate 4 true) tableEP := by decide
theorem witness_SBoxLookupSelectsRowAndColumn :
    (3 : Fin 4).val = 2 * true.toNat + true.toNat ∧ (0 : Fin 4).val = 2 * false.toNat + false.toNat ∧
      [true, false, true].length ≠ 4 := by decide
theorem witness_RoundXorsFeistelIntoLeftHalf :
    (List.replicate 4 true).length = 4 ∧ (List.replicate 4 false).length = 4 ∧ (List.replicate 8 true).length = 8 := by decide
theorem witness_SwapExchangesHalves : (List.replicate 4 true).length = 4 ∧ (List.replicate 4 false).length = 4 := by decide
theorem witness_RoundIsItsOwnInverse : (List.replicate 8 true).length = 8 ∧ (List.replicate 8 false).length = 8 := by decide
theorem witness_BlockPipelineRunsFiveSteps :
    (List.replicate 8 true).length = 8 ∧ (List.replicate 8 false).length = 8 := by decide
theorem witness_BlockRoundTrip : (List.replicate 8 true).length = 8 ∧ (List.replicate 8 false).length = 8 := by decide
theorem witness_BlockCipherPermutesBlocks :
    (List.replicate 8 true).length = 8 ∧ (List.replicate 8 false).length = 8 := by decide
theorem witness_FlippedBitChangesTheBlock :
    (List.replicate 8 true).length = 8 ∧ (List.replicate 8 true)[0]? = some true ∧ (List.replicate 8 true)[7]? = some true := by
  decide
theorem witness_MessageCodecIsBytewise : (bitsOfKey 0b1010000010).length = 10 := by decide
theorem witness_OneCodebookPerKey : (bitsOfKey 0b1010000010).length = 10 := by decide
theorem witness_LoadkeyInstallsOrClearsTheKey :
    ((List.replicate 10 (0x31 : Byte)).length = 10 ∧ ∀ b ∈ List.replicate 10 (0x31 : Byte), b = 0x30 ∨ b = 0x31) ∧
    ¬ ((List.replicate 11 (0x31 : Byte)).length = 10 ∧ ∀ b ∈ List.replicate 11 (0x31 : Byte), b = 0x30 ∨ b = 0x31) ∧
    ¬ ((List.replicate 10 (0x32 : Byte)).length = 10 ∧ ∀ b ∈ List.replicate 10 (0x32 : Byte), b = 0x30 ∨ b = 0x31) := by decide
theorem witness_EncbAnswersTheCiphertext :
    stateA.keyv = true ∧ noKey.keyv = false ∧ ([] : List Byte).length ≠ 1 ∧ ([0, 1] : List Byte).length ≠ 1 := by decide
theorem witness_DecbAnswersThePlaintext :
    stateA.keyv = true ∧ noKey.keyv = false ∧ ([] : List Byte).length ≠ 1 ∧ ([0, 1] : List Byte).length ≠ 1 ∧
      ({ stateA with tx := [0x00] } : State).keyv = true ∧ ({ stateA with tx := [0x00] } : State).key = stateA.key := by decide
theorem witness_EncmAnswersTheCiphertexts :
    (List.replicate 255 (0 : Byte)).length ≤ 255 ∧ ([] : List Byte).length ≤ 255 ∧ stateA.keyv = true ∧ noKey.keyv = false :=
  ⟨(List.length_replicate ..).le, Nat.zero_le _, rfl, rfl⟩
theorem witness_DecmAnswersThePlaintexts :
    (List.replicate 255 (0 : Byte)).length ≤ 255 ∧ ([] : List Byte).length ≤ 255 ∧ stateA.keyv = true ∧ noKey.keyv = false :=
  ⟨(List.length_replicate ..).le, Nat.zero_le _, rfl, rfl⟩
theorem witness_DataCommandsOnlyRespond : (∀ p, Instr.encb 0 ≠ .loadkey p) ∧ stateA.key = 0b1010000010 ∧ stateA.keyv = true :=
  ⟨fun _ => by simp, rfl, rfl⟩
theorem witness_DecodeOfEncodeIsTheCommand :
    (Instr.encb 0xFF).wf = true ∧ (Instr.loadkey (List.replicate 255 0)).wf = true ∧ (Instr.decm []).wf = true :=
  ⟨rfl, by simp only [Instr.wf, fitsFrame, List.length_replicate]; decide, rfl⟩
theorem witness_EncodeOfDecodeIsTheFrame : decode [0x05, 0x00, 0xFF] = .ok (.decm [], [0xFF]) := by decide
theorem witness_OpcodeTableAgreesWithDecoder :
    (List.replicate 255 (0 : Byte)).length ≤ 255 ∧ decodeFrame ⟨0x02, [0x00]⟩ = .ok (.encb 0x00) ∧
      decodeFrame ⟨0x06, []⟩ = .error (.opcode 0x06) :=
  ⟨(List.length_replicate ..).le, by decide, by decide⟩
theorem witness_IllegalFramesChangeNothing :
    (0x06 : Byte) ≤ 0x06 ∧ (0x06 : Byte) ≤ 0xFF ∧ ([] : List Byte).length ≠ 1 ∧
      txOf (transact ⟨0x01, []⟩ noKey) = some [0x01, 0x00] ∧ txOf (transact ⟨0x02, [0x00]⟩ noKey) = some [0x05, 0x00] ∧
      txOf (transact ⟨0x03, [0xCE]⟩ stateA) = some [0x00, 0x01, 0x00] := by decide
theorem witness_EveryFrameGetsOneResponse : (List.replicate 255 (0 : Byte)).length ≤ 255 :=
  (List.length_replicate ..).le
theorem witness_RunAnswersEveryFrameInOrder :
    (∀ f ∈ [(⟨0x02, [0x00]⟩ : Frame), ⟨0x07, []⟩], f.payload.length ≤ 255) ∧
      [(⟨0x02, [0x00]⟩ : Frame), ⟨0x07, []⟩][1]? = some ⟨0x07, []⟩ ∧
      txOf (runFrames [⟨0x02, [0x00]⟩, ⟨0x07, []⟩] noKey) = some [0x05, 0x00, 0x06, 0x00] := by decide
theorem witness_LongMessageGivesTheWholeResult :
    stateA.keyv = true ∧ longMessage 0x04 [] = [⟨0x04, []⟩] ∧ longMessage 0x05 [0xCE] = [⟨0x05, [0xCE]⟩] ∧
      longMessage 0x04 (List.replicate 256 0) = [⟨0x04, List.replicate 255 0⟩, ⟨0x04, [0]⟩] := by
  refine ⟨rfl, rfl, rfl, ?_⟩
  have split : splitMessage (255 + 1) (List.replicate 256 (0 : Byte)) = [List.replicate 255 0, [0]] := by
    rw [splitMessage, if_neg (by rw [List.length_replicate]; decide), List.take_replicate, List.drop_replicate, splitMessage]
    rfl
  rw [longMessage, List.length_replicate, split]
  rfl
theorem witness_InternalFaultsAreNeverAnswered :
    stateA.keyv = true ∧ (fun key => applyTable key [10] >>= fun _ => .ok ([] : List Byte)) (bitsOfKey stateA.key) =
      .error (.raise .indexOutOfRange) := by decide
theorem witness_ChecksComeInOrder :
    ([0, 1] : List Byte).length ≠ 1 ∧ noKey.keyv = false ∧ (∀ p, Instr.decm [] ≠ .loadkey p) ∧
      ([] : List Byte).length ≠ 10 ∧ (∃ b ∈ List.replicate 10 (0x32 : Byte), b ≠ 0x30 ∧ b ≠ 0x31) :=
  ⟨by decide, rfl, fun _ => by simp, by decide, by decide⟩
theorem witness_ErrorsHaveNoOtherEffect :
    txOf (transact ⟨0x00, []⟩ stateA) = some (stateA.tx ++ [ErrorKind.code .illegalCommand, 0x00]) ∧
    txOf (transact ⟨0x01, []⟩ stateA) = some (stateA.tx ++ [ErrorKind.code .invalidKeyFormat, 0x00]) ∧
    txOf (transact ⟨0x04, []⟩ noKey) = some (noKey.tx ++ [ErrorKind.code .keyNotSet, 0x00]) := by decide
theorem witness_ResetAtAnyMomentStartsAfresh :
    ({ stateA with rx := [0x02], host := [⟨true, none, false⟩] } : State).host = ⟨true, none, false⟩ :: [] ∧
      cutFrame ({ stateA with rx := [0x02], host := [⟨true, none, false⟩] } : State).rx = none ∧
      ({ stateA with tx := [0xCE], host := [⟨true, none, true⟩] } : State).host = ⟨true, none, true⟩ :: [] ∧
      ({ stateA with tx := [0xCE], host := [⟨true, none, true⟩] } : State).tx ≠ [] := by decide
theorem witness_NoDataBeforeAValidLoadkey :
    noKey.keyv = false ∧ ∀ f ∈ [(⟨0x01, [0x31]⟩ : Frame), ⟨0x02, [0x00]⟩], f.op = 0x01 → validKeyString engine f.payload = false := by
  decide
theorem witness_UnsetKeyBitsAreInvisible :
    Indistinguishable (State.fresh 0b0000000000 0 []) (State.fresh 0b1111111111 3 []) :=
  ⟨rfl, fun h => by simp [State.fresh] at h, rfl, rfl, rfl, rfl, rfl⟩
theorem witness_OnlyLoadkeyAndResetWriteTheKey :
    keyOf (step { noKey with rx := 0x01 :: 0x0A :: List.replicate 10 0x31 }) = some (some 0b1111111111) ∧
    keyOf (step { stateA with rx := [0x02], host := [⟨true, none, false⟩] }) = some none ∧ cutFrame [0x02] = none ∧
    keyOf (step { stateA with tx := [0xCE], host := [⟨true, none, false⟩] }) = some none := by decide
theorem witness_StepRunsTheDecodedCommand :
    stateA.tx = [] ∧ decode ({ stateA with rx := [0x04, 0x00] } : State).rx = .ok (.encm [], []) ∧
      decode ({ stateA with rx := [0xFF, 0x01, 0x02, 0x04] } : State).rx = .error (.illegal (.opcode 0xFF)) ∧
      cutFrame [0xFF, 0x01, 0x02, 0x04] = some (⟨0xFF, [0x02]⟩, [0x04]) := by decide
theorem witness_PlacedWordRunsNext : decodeTableWord 16 0x0301 = some (.decb 0x00) := by decide
theorem witness_ByteCrossesWhenValidAndReady :
    ({ noKey with host := [offer 0x02] } : State).host = offer 0x02 :: [] ∧ (offer 0x02).rst = false ∧ cutFrame noKey.rx = none ∧
    noKey.cmdReady = true ∧ (offer 0x02).cmd = some 0x02 ∧
    ({ noKey with tx := [0x05] } : State).tx = 0x05 :: [] ∧ take.rspReady = true ∧ take.cmd = none ∧ noKey.rspValid = false := by
  decide
theorem witness_OfferedFrameIsExecuted :
    noKey.tx = [] ∧ noKey.rx = [] ∧
    ({ noKey with host := [offer 0x04, offer 0x00] } : State).host =
      (encodeFrame ⟨0x04, []⟩).map (fun b => (⟨false, some b, false⟩ : Moment)) ++ [] := by decide
theorem witness_TakenResponseLeavesInOrder :
    [take, take].length = ({ noKey with tx := [0x05, 0x00] } : State).tx.length ∧
    (∀ m ∈ [take, take], m.rst = false ∧ m.rspReady = true) := by decide
theorem witness_StepKeepsChannelInv :
    ChannelInv noKey ∧ txOf (step { noKey with host := [offer 0x02] }) = some [] := by
  refine ⟨⟨.inl rfl, ?_, by decide⟩, by decide⟩
  intro f rest h
  cases h
theorem witness_StepKeepsStreamsAgree :
    StreamsAgree noKey ∧ txOf (step { noKey with host := [offer 0x02] }) = some [] :=
  ⟨⟨0b0000000000, 0, [], noKey, by simp, rfl, rfl, rfl, rfl, rfl, rfl⟩, by decide⟩

end Sys2Proof.Tests
end

/-! PROOFS. The family of 30_encoding.md: what a frame is in the byte stream (R65), and which frames answer `IllegalCommand` (R70, R71). -/

namespace Sys2Proof

/-- Settles O29: the two directions are `cutFrame_some` and `cutFrame_encodeFrame`, where `LEN` is the payload's length as a byte. -/
theorem frameIsTwoBytesAndLenMore : Obligations.FrameIsTwoBytesAndLenMore := by
  intro bytes rest f
  constructor
  · intro h
    obtain ⟨hbytes, hfits⟩ := cutFrame_some h
    exact ⟨BitVec.ofNat 8 f.payload.length, lengthByte_toNat hfits, hbytes⟩
  · rintro ⟨len, hlen, rfl⟩
    have hfits : f.payload.length ≤ lenMax := hlen ▸ Nat.le_of_lt_succ len.isLt
    have hframe : encodeFrame f ++ rest = f.op :: len :: (f.payload ++ rest) := by
      simp [encodeFrame, ← hlen]
    rw [← hframe]
    exact cutFrame_encodeFrame hfits rest

/-- The frame of a command decodes to it (R67, R68). -/
theorem decodeFrame_op_payload (i : Instr) : decodeFrame ⟨i.op, i.payload⟩ = .ok i := by
  cases i <;> rfl

/-- ENCB or DECB with `LEN` other than 1 is no command (R71). -/
theorem decodeFrame_wrongLength {op : Byte} {p : List Byte} (hop : op = opEncb ∨ op = opDecb) (hlen : p.length ≠ 1) :
    decodeFrame ⟨op, p⟩ = .error (.length op p.length) := by
  obtain rfl | rfl := hop
  · exact oneByte_error opEncb .encb hlen
  · exact oneByte_error opDecb .decb hlen

/-- A frame with an opcode outside `0x01 .. 0x05` (R70), or ENCB or DECB with `LEN` other than 1 (R71), decodes to no command. -/
theorem decodeFrame_illegal {op : Byte} {p : List Byte}
    (h : (op = 0x00 ∨ 0x06 ≤ op) ∨ ((op = 0x02 ∨ op = 0x03) ∧ p.length ≠ 1)) :
    ∃ why, decodeFrame ⟨op, p⟩ = .error why := by
  obtain hop | ⟨hop, hlen⟩ := h
  · have outside : ∀ b : Byte, b ≠ 0x00 → b < 0x06 → op ≠ b := by
      rintro b h0 h6 rfl
      exact hop.elim h0 (BitVec.not_le.mpr h6)
    exact ⟨_, decodeFrame_unassigned (outside opLoadkey (by decide) (by decide)) (outside opEncb (by decide) (by decide))
      (outside opDecb (by decide) (by decide)) (outside opEncm (by decide) (by decide))
      (outside opDecm (by decide) (by decide))⟩
  · exact ⟨_, decodeFrame_wrongLength hop hlen⟩

/-- A frame with an assigned opcode, and `LEN = 1` where that is ENCB or DECB, is a command (R67). -/
theorem decodeFrame_legal {op : Byte} {p : List Byte}
    (h : op = 0x01 ∨ op = 0x04 ∨ op = 0x05 ∨ ((op = 0x02 ∨ op = 0x03) ∧ p.length = 1)) :
    ∃ i, decodeFrame ⟨op, p⟩ = .ok i := by
  obtain rfl | rfl | rfl | ⟨hop, hlen⟩ := h
  · exact ⟨_, decodeFrame_op_payload (.loadkey p)⟩
  · exact ⟨_, decodeFrame_op_payload (.encm p)⟩
  · exact ⟨_, decodeFrame_op_payload (.decm p)⟩
  · obtain ⟨d, rfl⟩ := List.length_eq_one_iff.mp hlen
    obtain rfl | rfl := hop
    · exact ⟨_, decodeFrame_op_payload (.encb d)⟩
    · exact ⟨_, decodeFrame_op_payload (.decb d)⟩

end Sys2Proof

namespace Sys2Proof.Machine

/-- A data command whose function answers on every key answers its result, or `KeyNotSet` when no key is installed (R226, R230). -/
theorem dataCommand_cases {f : Bits → Except Stop (List Byte)} (hf : ∀ key : Bits, key.length = 10 → ∃ rs, f key = .ok rs)
    (s : State) :
    (s.keyv = true ∧ ∃ rs, dataCommand s f = .next (respondOK s rs)) ∨
    (s.keyv = false ∧ dataCommand s f = .next (raiseError s .keyNotSet)) := by
  cases hv : s.keyv with
  | true =>
    obtain ⟨rs, hrs⟩ := hf (bitsOfKey s.key) (bitsOfKey_length s.key)
    exact .inl ⟨rfl, rs, dataCommand_installed hv hrs⟩
  | false => exact .inr ⟨rfl, dataCommand_unset f hv⟩

/-- What LOADKEY answers: OK with the key installed, or `InvalidKeyFormat` with the key cleared (R190). -/
theorem exec_loadkey_cases (p : List Byte) (s : State) :
    (validKeyString engine p = true ∧
      exec (.loadkey p) s = .next (respondOK (installKey s (keyOfString engine p)) [])) ∨
    (validKeyString engine p = false ∧ exec (.loadkey p) s = .next (raiseError (clearKey s) .invalidKeyFormat)) := by
  cases hv : validKeyString engine p with
  | true => exact .inl ⟨rfl, loadkeyWith_valid s hv⟩
  | false => exact .inr ⟨rfl, loadkeyWith_invalid s hv⟩

/-- What ENCB, DECB, ENCM and DECM answer: a result, or `KeyNotSet` when no key is installed; no other error (R191 to R194, R228). -/
theorem exec_data_cases {i : Instr} (hi : ∀ p, i ≠ .loadkey p) (s : State) :
    (s.keyv = true ∧ ∃ rs, exec i s = .next (respondOK s rs)) ∨
    (s.keyv = false ∧ exec i s = .next (raiseError s .keyNotSet)) := by
  cases i with
  | loadkey p => exact absurd rfl (hi p)
  | encb d =>
    simp only [exec, execEncb, encbWith]
    refine dataCommand_cases (fun key hk => ?_) s
    obtain ⟨r, hr⟩ := encryptByte_ok engine d hk
    exact ⟨[r], by simp [hr]⟩
  | decb d =>
    simp only [exec, execDecb, decbWith]
    refine dataCommand_cases (fun key hk => ?_) s
    obtain ⟨r, hr⟩ := decryptByte_ok engine d hk
    exact ⟨[r], by simp [hr]⟩
  | encm p => exact dataCommand_cases (fun key hk => (encryptBytes_ok engine p hk).imp fun _ h => h.1) s
  | decm p => exact dataCommand_cases (fun key hk => (decryptBytes_ok engine p hk).imp fun _ h => h.1) s

/-- Whatever a command appends to the response begins with the status OK, `InvalidKeyFormat` or `KeyNotSet` (R221). -/
theorem exec_status (i : Instr) (s : State) :
    ∃ (t : State) (status : Byte) (result : List Byte), exec i s = .next t ∧ t.tx = s.tx ++ responseFrame status result ∧
      (status = codeOK ∨ status = ErrorKind.code .invalidKeyFormat ∨ status = ErrorKind.code .keyNotSet) := by
  by_cases hi : ∃ p, i = .loadkey p
  · obtain ⟨p, rfl⟩ := hi
    obtain ⟨-, h⟩ | ⟨-, h⟩ := exec_loadkey_cases p s
    · exact ⟨_, _, _, h, rfl, .inl rfl⟩
    · exact ⟨_, _, _, h, rfl, .inr (.inl rfl)⟩
  · obtain ⟨-, rs, h⟩ | ⟨-, h⟩ := exec_data_cases (not_exists.mp hi) s
    · exact ⟨_, _, _, h, rfl, .inl rfl⟩
    · exact ⟨_, _, _, h, rfl, .inr (.inr rfl)⟩

/-- No command that runs answers `IllegalCommand`: that is left to the frame check (R195, R227). -/
theorem exec_tx_ne_illegalCommand {i : Instr} {s t : State} (h : exec i s = .next t) :
    t.tx ≠ s.tx ++ errFrame .illegalCommand := by
  obtain ⟨t', status, result, hexec, htx, hstatus⟩ := exec_status i s
  obtain rfl : t' = t := Host.Outcome.next.inj (hexec.symm.trans h)
  intro hill
  have hcode : status = ErrorKind.code .illegalCommand :=
    (List.cons.inj (List.append_cancel_left (htx.symm.trans hill))).1
  subst hcode
  revert hstatus
  decide

/-- Settles O33: a frame is a command or not by its opcode and length alone; one that is not changes only the response, and a command
never answers with the status of `IllegalCommand`. -/
theorem illegalFramesChangeNothing : Obligations.IllegalFramesChangeNothing := by
  intro op p s
  constructor
  · intro hframe
    obtain ⟨why, hwhy⟩ := decodeFrame_illegal hframe
    exact transact_illegal s hwhy
  · intro hframe t ht
    obtain ⟨i, hi⟩ := decodeFrame_legal hframe
    exact exec_tx_ne_illegalCommand (transact_command s hi ▸ ht)

end Sys2Proof.Machine

/-! PROOFS. The family of 40_bitvector.md: `xor` (R92), `concat` (R93), and the number a bit sequence denotes (R12, R94). -/

namespace Sys2Proof.Machine

/-- `xor` of unequal lengths (R92). -/
theorem xorBits_lengthMismatch {a b : Bits} (h : a.length ≠ b.length) :
    xorBits a b = .error (.raise .lengthMismatch) := by
  simp [xorBits, h]

/-- Bit `i` of an elementwise exclusive-or. -/
theorem getElem?_zipWith_xor {a b : Bits} {i : Nat} {x y : Bool} (hx : a[i]? = some x) (hy : b[i]? = some y) :
    (List.zipWith Bool.xor a b)[i]? = some (x ^^ y) := by
  simp [List.getElem?_zipWith, hx, hy]

/-- Xor twice with the same operand answers the other (R92). -/
theorem xorBits_bind_cancel {a b : Bits} (h : a.length = b.length) :
    (xorBits a b >>= fun t => xorBits t b) = .ok a := by
  have ht : (List.zipWith Bool.xor a b).length = b.length := by simp [h]
  rw [xorBits_ok h, ok_bind, xorBits_ok ht, zipWith_xor_cancel h]

/-- Xor does not depend on the order of the operands (R92), whatever their lengths. -/
theorem xorBits_comm (a b : Bits) : xorBits a b = xorBits b a := by
  by_cases h : a.length = b.length
  · rw [xorBits_ok h, xorBits_ok h.symm, List.zipWith_comm_of_comm Bool.xor_comm]
  · rw [xorBits_lengthMismatch h, xorBits_lengthMismatch (Ne.symm h)]

/-- Xor of a sequence with itself is all zeros (R92). -/
theorem xorBits_self (a : Bits) : xorBits a a = .ok (List.replicate a.length false) := by
  rw [xorBits_ok rfl, List.zipWith_self]
  simp

/-- Settles O3: `xorBits_ok` gives the result on equal lengths, whose bits and laws are the lemmas above; `xorBits_lengthMismatch` is
the other case. -/
theorem xorIsElementwiseOnEqualLengths : Obligations.XorIsElementwiseOnEqualLengths := by
  intro a b
  refine ⟨fun h => ⟨⟨_, xorBits_ok h, ?_, ?_⟩, xorBits_bind_cancel h, xorBits_comm a b, xorBits_self a⟩,
    xorBits_lengthMismatch⟩
  · simp [h]
  · exact fun i x y => getElem?_zipWith_xor

/-- The fold of `bitsToNat` started at `v`: each bit read doubles what stands before it. -/
theorem foldl_double_add (v : Nat) (bits : Bits) :
    bits.foldl (fun v b => 2 * v + b.toNat) v = v * 2 ^ bits.length + bitsToNat bits := by
  induction bits generalizing v with
  | nil => simp [bitsToNat]
  | cons b bits ih =>
    rw [bitsToNat, List.foldl_cons, List.foldl_cons, ih, ih (2 * 0 + b.toNat), List.length_cons]
    ring

@[simp] theorem bitsToNat_nil : bitsToNat [] = 0 := rfl

/-- The first bit is the most significant (R12). -/
theorem bitsToNat_cons (b : Bool) (bits : Bits) :
    bitsToNat (b :: bits) = b.toNat * 2 ^ bits.length + bitsToNat bits := by
  rw [bitsToNat, List.foldl_cons, foldl_double_add, Nat.mul_zero, Nat.zero_add]

/-- A sequence of `n` bits denotes a number below `2 ^ n`. -/
theorem bitsToNat_lt (bits : Bits) : bitsToNat bits < 2 ^ bits.length := by
  induction bits with
  | nil => simp
  | cons b bits ih =>
    have hb : b.toNat * 2 ^ bits.length ≤ 1 * 2 ^ bits.length := Nat.mul_le_mul_right _ b.toNat_le
    rw [bitsToNat_cons, List.length_cons, Nat.pow_succ]
    omega

/-- The number as the sum of the bits' weights (R94). -/
theorem bitsToNat_eq_sum (bits : Bits) :
    bitsToNat bits = ∑ i : Fin bits.length, bits[i].toNat * 2 ^ (bits.length - 1 - i.val) := by
  induction bits with
  | nil => rfl
  | cons b bits ih =>
    have weight (i : Nat) : bits.length - 1 - i = bits.length - (i + 1) := by omega
    rw [bitsToNat_cons, ih]
    simp [Fin.sum_univ_succ, weight]

/-- The byte of at most 8 bits has the number they denote, with nothing cut off (R94). -/
theorem toNat_ofNat_bitsToNat {bits : Bits} (h : bits.length ≤ 8) :
    (BitVec.ofNat 8 (bitsToNat bits)).toNat = bitsToNat bits := by
  have hlt : bitsToNat bits < 2 ^ 8 :=
    calc bitsToNat bits < 2 ^ bits.length := bitsToNat_lt bits
      _ ≤ 2 ^ 8 := Nat.pow_le_pow_right (by decide) h
  rw [BitVec.toNat_ofNat, Nat.mod_eq_of_lt hlt]

/-- `bitsToByte` of more than 8 bits (U2). -/
theorem bitsToByte_refused {bits : Bits} (h : 8 < bits.length) : bitsToByte bits = .error (.refuse .moreThanEightBits) := by
  simp [bitsToByte, h]

/-- Settles O5: the byte loses nothing of the number (`toNat_ofNat_bitsToNat`), and the number is the sum (`bitsToNat_eq_sum`). -/
theorem bitsToByteReadsBigEndian : Obligations.BitsToByteReadsBigEndian := fun bits =>
  ⟨fun h => ⟨_, bitsToByte_ok h, (toNat_ofNat_bitsToNat h).trans (bitsToNat_eq_sum bits)⟩, bitsToByte_refused⟩

/-- Settles O4: `concat` is the library's append, whose length and positions on either side of the joint are known. -/
theorem concatAppends : Obligations.ConcatAppends := by
  intro a b
  refine ⟨List.length_append, fun i hi => List.getElem?_append_left hi, fun j _ => ?_⟩
  rw [concat, List.getElem?_append_right (Nat.le_add_right _ _), Nat.add_sub_cancel_left]

end Sys2Proof.Machine

/-! PROOFS. The family of 41_permutation.md: `applyTable` entry by entry (R110), and the wires of the six tables (R112 to R117). -/

namespace Sys2Proof.Machine

/-- A table entry answers the bit at that position, and nothing when it is no position (R110). -/
theorem readAt_eq_ok_iff {input : Bits} {entry : Int} {b : Bool} :
    readAt input entry = .ok b ↔ 0 ≤ entry ∧ input[entry.toNat]? = some b := by
  unfold readAt
  split
  case isTrue hneg => simp [not_le.mpr hneg]
  case isFalse hneg =>
    cases hbit : input[entry.toNat]? <;> simp [not_lt.mp hneg]

/-- What `applyTable` answers, entry by entry: each output bit is the input bit at its table entry (R110). -/
theorem applyTable_eq_ok_iff {input : Bits} {table : List Int} {out : Bits} :
    applyTable input table = .ok out ↔ List.Forall₂ (fun entry b => readAt input entry = .ok b) table out := by
  induction table generalizing out with
  | nil => simp [applyTable, eq_comm]
  | cons entry rest ih =>
    simp only [List.forall₂_cons_left_iff, ← ih, applyTable]
    cases readAt input entry with
    | error e => simp
    | ok b => cases applyTable input rest <;> simp [eq_comm]

/-- Settles O8: by `applyTable_eq_ok_iff` each table is read off entry by entry, and the subkeys are the selections K1SEL and K2SEL. -/
theorem tablesConnectTheirWires : Obligations.TablesConnectTheirWires := by
  refine ⟨fun x0 x1 x2 x3 x4 x5 x6 x7 => ⟨?ip, ?ipInverse⟩, fun x0 x1 x2 x3 => ⟨?ep, ?p4⟩,
    fun k0 k1 k2 k3 k4 k5 k6 k7 k8 k9 => ?subkeys⟩
  case ip => simp [applyTable_eq_ok_iff, readAt_eq_ok_iff, tableIP]
  case ipInverse => simp [applyTable_eq_ok_iff, readAt_eq_ok_iff, tableIPInverse]
  case ep => simp [applyTable_eq_ok_iff, readAt_eq_ok_iff, tableEP]
  case p4 => simp [applyTable_eq_ok_iff, readAt_eq_ok_iff, tableP4]
  case subkeys =>
    have k1sel : applyTable [k0, k1, k2, k3, k4, k5, k6, k7, k8, k9] tableK1SEL =
        .ok [k0, k6, k8, k3, k7, k2, k9, k5] := by simp [applyTable_eq_ok_iff, readAt_eq_ok_iff, tableK1SEL]
    have k2sel : applyTable [k0, k1, k2, k3, k4, k5, k6, k7, k8, k9] tableK2SEL =
        .ok [k7, k2, k5, k4, k9, k1, k8, k0] := by simp [applyTable_eq_ok_iff, readAt_eq_ok_iff, tableK2SEL]
    exact ⟨k1sel, k2sel, k1sel, k2sel⟩

end Sys2Proof.Machine

/-! PROOFS. The family of 42_sbox.md: the two-bit index (R131), its inverse, and the lookup of one box (R130, R132). -/

namespace Sys2Proof.Machine

/-- The two bits `byteToBits` reads from a 2-bit value, the more significant first (R132). -/
theorem byteToBits_setWidth_two (v : BitVec 2) :
    byteToBits (v.setWidth 8) 2 = .ok [v.getLsbD 1, v.getLsbD 0] := by
  rw [byteToBits_ok _ (by decide)]
  simp [List.range_succ]

/-- An index is the one of `hi` and `lo` exactly when it is the number they denote (R131). -/
theorem eq_twoBitIndex_iff {i : Fin 4} {hi lo : Bool} :
    i = twoBitIndex hi lo ↔ i.val = 2 * hi.toNat + lo.toNat :=
  Fin.ext_iff

/-- Each index 0..3 has its two bits: bit 1 and bit 0 of the number, and no others (R131). -/
theorem eq_twoBitIndex_iff_testBit {i : Fin 4} {hi lo : Bool} :
    i = twoBitIndex hi lo ↔ hi = i.val.testBit 1 ∧ lo = i.val.testBit 0 := by
  revert i hi lo
  decide

/-- One box on a 4-bit input: the entry at the outer bits' row and the inner bits' column (R130). -/
theorem sboxLookup_eq_entry {table : SBoxTable} {x0 x1 x2 x3 : Bool} {row col : Fin 4}
    (hrow : row.val = 2 * x0.toNat + x3.toNat) (hcol : col.val = 2 * x1.toNat + x2.toNat) :
    sboxLookup table [x0, x1, x2, x3] = .ok [(table[row][col]).getLsbD 1, (table[row][col]).getLsbD 0] := by
  rw [← eq_twoBitIndex_iff] at hrow hcol
  subst hrow hcol
  exact byteToBits_setWidth_two _

/-- One box on an input of any other length (R130). -/
theorem sboxLookup_invalidSBoxInput (table : SBoxTable) {x : Bits} (h : x.length ≠ 4) :
    sboxLookup table x = .error (.raise .invalidSBoxInput) := by
  unfold sboxLookup
  split
  case h_1 => exact absurd rfl h
  case h_2 => rfl

/-- Settles O11: both boxes are `sboxLookup` of their contents, and the input that selects a row and a column consists of the bits of
the two indices (`eq_twoBitIndex_iff_testBit`). -/
theorem sBoxLookupSelectsRowAndColumn : Obligations.SBoxLookupSelectsRowAndColumn := by
  refine ⟨fun c x0 x1 x2 x3 row col hrow hcol => ⟨sboxLookup_eq_entry hrow hcol, sboxLookup_eq_entry hrow hcol⟩,
    fun c x hx => ⟨sboxLookup_invalidSBoxInput _ hx, sboxLookup_invalidSBoxInput _ hx⟩, fun row col => ?selected⟩
  case selected =>
    simp only [← eq_twoBitIndex_iff, eq_twoBitIndex_iff_testBit]
    refine ⟨(row.val.testBit 1, col.val.testBit 1, col.val.testBit 0, row.val.testBit 0), ⟨⟨rfl, rfl⟩, rfl, rfl⟩, ?_⟩
    rintro ⟨x0, x1, x2, x3⟩ ⟨⟨rfl, rfl⟩, rfl, rfl⟩
    rfl

end Sys2Proof.Machine

/-! PROOFS. The family of 43_feistel.md: the four steps of R140 in order, given what the two S-boxes answer. -/

namespace Sys2Proof.Machine

/-- A 4-bit value through EP, wire by wire (R114). -/
theorem applyTable_tableEP (x0 x1 x2 x3 : Bool) :
    applyTable [x0, x1, x2, x3] tableEP = .ok [x3, x0, x1, x2, x1, x2, x3, x0] := by
  obtain ⟨-, fourBitTables, -⟩ := tablesConnectTheirWires
  exact (fourBitTables x0 x1 x2 x3).1

/-- A 4-bit value through P4, wire by wire (R115). -/
theorem applyTable_tableP4 (q0 q1 q2 q3 : Bool) :
    applyTable [q0, q1, q2, q3] tableP4 = .ok [q1, q3, q2, q0] := by
  obtain ⟨-, fourBitTables, -⟩ := tablesConnectTheirWires
  exact (fourBitTables q0 q1 q2 q3).2

/-- The Feistel function from its steps' answers: the expansion, the mixed value as its two halves, and each box's output (R140). -/
theorem feistel_eq_applyTable_tableP4 {c : Config} {k x e ml mr s0out s1out : Bits} (he : applyTable x tableEP = .ok e)
    (hm : xorBits k e = .ok (ml ++ mr)) (hhalves : ml.length = mr.length) (h0 : sbox0 c ml = .ok s0out)
    (h1 : sbox1 c mr = .ok s1out) : feistel c k x = applyTable (s0out ++ s1out) tableP4 := by
  simp only [feistel, he, hm, leftHalf_append hhalves, rightHalf_append hhalves, h0, h1, ok_bind, concat]

/-- Settles O12: EP and the key mixing give the two boxes their inputs, each box answers two bits whatever it holds (`sboxLookup_ok`), and
P4 orders the four bits. -/
theorem feistelComputesItsFourSteps : Obligations.FeistelComputesItsFourSteps := by
  intro c k0 k1 k2 k3 k4 k5 k6 k7 x0 x1 x2 x3
  obtain ⟨s0out, h0, h0l⟩ := sboxLookup_ok c.sbox0 (x := [k0 ^^ x3, k1 ^^ x0, k2 ^^ x1, k3 ^^ x2]) rfl
  obtain ⟨s1out, h1, h1l⟩ := sboxLookup_ok c.sbox1 (x := [k4 ^^ x1, k5 ^^ x2, k6 ^^ x3, k7 ^^ x0]) rfl
  obtain ⟨q0, q1, rfl⟩ := bits_two h0l
  obtain ⟨q2, q3, rfl⟩ := bits_two h1l
  have mixed : xorBits [k0, k1, k2, k3, k4, k5, k6, k7] [x3, x0, x1, x2, x1, x2, x3, x0] =
      .ok ([k0 ^^ x3, k1 ^^ x0, k2 ^^ x1, k3 ^^ x2] ++ [k4 ^^ x1, k5 ^^ x2, k6 ^^ x3, k7 ^^ x0]) := xorBits_ok rfl
  refine ⟨q0, q1, q2, q3, h0, h1, ?_⟩
  calc feistel c [k0, k1, k2, k3, k4, k5, k6, k7] [x0, x1, x2, x3]
      = applyTable ([q0, q1] ++ [q2, q3]) tableP4 :=
        feistel_eq_applyTable_tableP4 (applyTable_tableEP x0 x1 x2 x3) mixed rfl h0 h1
    _ = .ok [q1, q3, q2, q0] := applyTable_tableP4 q0 q1 q2 q3

end Sys2Proof.Machine

/-! PROOFS. The family of 44_round.md: the round on a block written as its two halves (R150), and the half-swap (R151). -/

namespace Sys2Proof.Machine

/-- Settles O13: the Feistel function answers four bits whatever the boxes hold (`feistel_ok`), as many as the left half has, so the
exclusive-or is defined and is the left half that `roundBlock_append` gives. -/
theorem roundXorsFeistelIntoLeftHalf : Obligations.RoundXorsFeistelIntoLeftHalf := by
  intro c l r k hl hr hk
  obtain ⟨f, hf, hfl⟩ := feistel_ok c hk hr
  exact ⟨f, _, hf, hfl, xorBits_ok (hl.trans hfl.symm), roundBlock_append c hl hr hf hfl⟩

/-- The half-swap undoes itself on two parts of equal length (R151). -/
theorem swapHalves_append_bind_swapHalves {l r : Bits} (h : l.length = r.length) :
    (swapHalves (l ++ r) >>= swapHalves) = .ok (l ++ r) := by
  rw [swapHalves_append h, ok_bind, swapHalves_append h.symm]

/-- Settles O14: the halves have the same length, in either order, so `swapHalves_append` applies to the block and to its swap. -/
theorem swapExchangesHalves : Obligations.SwapExchangesHalves := by
  intro l r hl hr
  have hlr : l.length = r.length := hl.trans hr.symm
  exact ⟨swapHalves_append hlr, swapHalves_append_bind_swapHalves hlr⟩

end Sys2Proof.Machine

/-! PROOFS. The family of 46_block_cipher.md: a block answered by the pipeline has passed its five steps (R170), in either subkey
order (R171). -/

namespace Sys2Proof.Machine

/-- A computation in two parts answers exactly when the first answers and the second does on what the first gave. -/
theorem bind_eq_ok_iff {α β : Type} {x : Except Stop α} {f : α → Except Stop β} {b : β} :
    (x >>= f) = .ok b ↔ ∃ a, x = .ok a ∧ f a = .ok b := by
  cases x with
  | ok a => simp
  | error e => exact ⟨nofun, nofun⟩

/-- What the pipeline answers, step by step: the two rounds take the subkeys in the order given (R170). -/
theorem blockPipeline_eq_ok_iff {c : Config} {block first second out : Bits} :
    blockPipeline c block first second = .ok out ↔
      ∃ t1 t2 t3 t4 : Bits, applyTable block tableIP = .ok t1 ∧ roundBlock c t1 first = .ok t2 ∧ swapHalves t2 = .ok t3 ∧
        roundBlock c t3 second = .ok t4 ∧ applyTable t4 tableIPInverse = .ok out := by
  simp only [blockPipeline, bind_eq_ok_iff, exists_and_left]

/-- On a block and two subkeys no step of the pipeline raises: it answers a block (`blockPipeline_ok`), so each of its steps did. -/
theorem blockPipeline_steps (c : Config) {block first second : Bits} (hb : block.length = 8) (h1 : first.length = 8)
    (h2 : second.length = 8) :
    ∃ t1 t2 t3 t4 out : Bits, applyTable block tableIP = .ok t1 ∧ roundBlock c t1 first = .ok t2 ∧ swapHalves t2 = .ok t3 ∧
      roundBlock c t3 second = .ok t4 ∧ applyTable t4 tableIPInverse = .ok out ∧ out.length = 8 ∧
      blockPipeline c block first second = .ok out := by
  obtain ⟨out, hrun, hlen⟩ := blockPipeline_ok c hb h1 h2
  obtain ⟨t1, t2, t3, t4, hip, hfirst, hswap, hsecond, hinv⟩ := blockPipeline_eq_ok_iff.mp hrun
  exact ⟨t1, t2, t3, t4, out, hip, hfirst, hswap, hsecond, hinv, hlen, hrun⟩

/-- Settles O16: encryption is the pipeline with `k1` first and decryption the same pipeline with `k2` first, so
`blockPipeline_steps` serves both, and decrypting is encrypting with the subkeys exchanged by definition. -/
theorem blockPipelineRunsFiveSteps : Obligations.BlockPipelineRunsFiveSteps := by
  intro c block k1 k2 hb h1 h2
  exact ⟨blockPipeline_steps c hb h1 h2, blockPipeline_steps c hb h2 h1, rfl⟩

end Sys2Proof.Machine

/-! PROOFS. The family of 47_message_codec.md: a coded message byte by byte (R180, R181), each byte through the block function as
its block. -/

namespace Sys2Proof.Machine

/-- What the codec answers for one byte: the block function's answer on the byte's block, read as a byte (R180). -/
theorem codeByte_eq_ok_iff {f : Bits → Except Stop Bits} {b r : Byte} {block : Bits} (hblock : byteToBits b 8 = .ok block) :
    codeByte f b = .ok r ↔ ∃ t : Bits, f block = .ok t ∧ bitsToByte t = .ok r := by
  rw [codeByte, blockBits, hblock, ok_bind, bind_eq_ok_iff]

/-- What the codec answers for a message: its first byte coded, then the rest of it coded (R180). -/
theorem codeBytes_cons_eq_ok_iff {f : Bits → Except Stop Bits} {b : Byte} {bs rs : List Byte} :
    codeBytes f (b :: bs) = .ok rs ↔ ∃ r rest, codeByte f b = .ok r ∧ codeBytes f bs = .ok rest ∧ r :: rest = rs := by
  simp only [codeBytes, bind_eq_ok_iff, Except.ok.injEq, exists_and_left]

/-- Byte `j` of a coded message is byte `j` of the message, coded (R180, R182). -/
theorem getElem?_of_codeBytes {f : Bits → Except Stop Bits} {bytes rs : List Byte} (h : codeBytes f bytes = .ok rs) {j : Nat}
    {b : Byte} (hj : bytes[j]? = some b) : ∃ r, codeByte f b = .ok r ∧ rs[j]? = some r := by
  induction bytes generalizing rs j with
  | nil => simp at hj
  | cons b' bs ih =>
    obtain ⟨r, rest, hr, hrest, rfl⟩ := codeBytes_cons_eq_ok_iff.mp h
    cases j with
    | zero =>
      obtain rfl : b' = b := by simpa using hj
      exact ⟨r, hr, rfl⟩
    | succ j => exact ih hrest hj

/-- Encryption of a message, given the subkeys of the key: the codec with `k1` first (R180, R183). -/
theorem encryptBytes_eq_codeBytes {key k1 k2 : Bits} (h1 : subkey1 key = .ok k1) (h2 : subkey2 key = .ok k2) (c : Config)
    (bytes : List Byte) : encryptBytes c bytes key = codeBytes (fun block => encryptBlock c block k1 k2) bytes := by
  rw [encryptBytes, h1, h2, ok_bind, ok_bind]

/-- Decryption of a message, given the subkeys of the key: the codec with `k2` first (R181, R183). -/
theorem decryptBytes_eq_codeBytes {key k1 k2 : Bits} (h1 : subkey1 key = .ok k1) (h2 : subkey2 key = .ok k2) (c : Config)
    (bytes : List Byte) : decryptBytes c bytes key = codeBytes (fun block => decryptBlock c block k1 k2) bytes := by
  rw [decryptBytes, h1, h2, ok_bind, ok_bind]

/-- Settles O20: both directions answer a message of the same length (`encryptBytes_ok`, `decryptBytes_ok`) and are the codec of one
block function, whose answer `getElem?_of_codeBytes` reads at byte `j`. -/
theorem messageCodecIsBytewise : Obligations.MessageCodecIsBytewise := by
  intro c bytes key hkey
  obtain ⟨k1, k2, hk1, hk2, -, -⟩ := subkeys_ok hkey
  obtain ⟨es, hes, hesLength⟩ := encryptBytes_ok c bytes hkey
  obtain ⟨ds, hds, hdsLength⟩ := decryptBytes_ok c bytes hkey
  refine ⟨k1, k2, es, ds, hk1, hk2, hes, hesLength, hds, hdsLength, fun j b hj => ?_⟩
  rw [encryptBytes_eq_codeBytes hk1 hk2] at hes
  rw [decryptBytes_eq_codeBytes hk1 hk2] at hds
  have hblock := byteToBits_ok b (le_refl 8)
  obtain ⟨e, he, hej⟩ := getElem?_of_codeBytes hes hj
  obtain ⟨d, hd, hdj⟩ := getElem?_of_codeBytes hds hj
  obtain ⟨t, ht, hte⟩ := (codeByte_eq_ok_iff hblock).mp he
  obtain ⟨u, hu, hud⟩ := (codeByte_eq_ok_iff hblock).mp hd
  exact ⟨_, t, u, e, d, hblock, ht, hte, hej, hu, hud, hdj⟩

end Sys2Proof.Machine

/-! PROOFS. The family of 48_commands.md. The steps of the pipeline undo one another, so encryption and decryption under one key are inverse
on blocks (R172), bytes and messages (R182); each command answers what its byte or message function gives (R190 to R194). -/

namespace Sys2Proof.Machine

/-- `g` takes back what `f` answers, and both keep to blocks. -/
def UndoneBy (f g : Bits → Except Stop Bits) : Prop :=
  ∀ x : Bits, x.length = 8 → ∃ y : Bits, y.length = 8 ∧ f x = .ok y ∧ g y = .ok x

/-- Two steps in a row are undone in the reverse order. -/
theorem UndoneBy.comp {f f' g g' : Bits → Except Stop Bits} (hf : UndoneBy f f') (hg : UndoneBy g g') :
    UndoneBy (fun x => f x >>= g) (fun z => g' z >>= f') := by
  intro x hx
  obtain ⟨y, hy, hfx, hfy⟩ := hf x hx
  obtain ⟨z, hz, hgy, hgz⟩ := hg y hy
  exact ⟨z, hz, by simp only [hfx, ok_bind, hgy], by simp only [hgz, ok_bind, hfy]⟩

/-- IP is undone by IP_INVERSE (R113). -/
theorem tableIP_undoneBy : UndoneBy (applyTable · tableIP) (applyTable · tableIPInverse) := by
  intro x hx
  obtain ⟨x0, x1, x2, x3, x4, x5, x6, x7, rfl⟩ := bits_eight hx
  obtain ⟨eightBitTables, -, -⟩ := tablesConnectTheirWires
  exact ⟨[x1, x5, x2, x0, x3, x7, x4, x6], rfl, (eightBitTables ..).1, (eightBitTables ..).2⟩

/-- IP_INVERSE is undone by IP (R113). -/
theorem tableIPInverse_undoneBy : UndoneBy (applyTable · tableIPInverse) (applyTable · tableIP) := by
  intro x hx
  obtain ⟨x0, x1, x2, x3, x4, x5, x6, x7, rfl⟩ := bits_eight hx
  obtain ⟨eightBitTables, -, -⟩ := tablesConnectTheirWires
  exact ⟨[x3, x0, x2, x4, x6, x1, x7, x5], rfl, (eightBitTables ..).2, (eightBitTables ..).1⟩

/-- A round is undone by the same round: the right half, and with it the Feistel output, has not changed (R153). -/
theorem roundBlock_undoneBy (c : Config) {k : Bits} (hk : k.length = 8) :
    UndoneBy (roundBlock c · k) (roundBlock c · k) := by
  intro x hx
  obtain ⟨l, r, hl, hr, rfl⟩ := bits_halves hx
  obtain ⟨f, hf, hfl⟩ := feistel_ok c hk hr
  have hnew : (List.zipWith Bool.xor l f).length = 4 := by simp [hl, hfl]
  refine ⟨_, by simp [hnew, hr], roundBlock_append c hl hr hf hfl, ?_⟩
  simp only [roundBlock_append c hnew hr hf hfl, zipWith_xor_cancel (hl.trans hfl.symm)]

/-- The half-swap is undone by itself (R151). -/
theorem swapHalves_undoneBy : UndoneBy swapHalves swapHalves := by
  intro x hx
  obtain ⟨l, r, hl, hr, rfl⟩ := bits_halves hx
  exact ⟨r ++ l, by simp [hl, hr], swapHalves_append (hl.trans hr.symm), swapHalves_append (hr.trans hl.symm)⟩

/-- The pipeline is undone by the pipeline with the subkeys exchanged (R172). -/
theorem blockPipeline_undoneBy (c : Config) {k1 k2 : Bits} (h1 : k1.length = 8) (h2 : k2.length = 8) :
    UndoneBy (blockPipeline c · k1 k2) (blockPipeline c · k2 k1) := by
  have steps := tableIP_undoneBy.comp ((roundBlock_undoneBy c h1).comp
    (swapHalves_undoneBy.comp ((roundBlock_undoneBy c h2).comp tableIPInverse_undoneBy)))
  simpa only [blockPipeline, bind_assoc] using steps

/-- A bit of the number a sequence denotes, counted from the last position (R12). -/
theorem testBit_bitsToNat {bits : Bits} {i : Nat} (hi : i < bits.length) :
    (bitsToNat bits).testBit (bits.length - 1 - i) = bits[i] := by
  induction bits generalizing i with
  | nil => simp at hi
  | cons b bits ih =>
    rw [bitsToNat_cons, Nat.mul_comm, Nat.testBit_two_pow_mul_add _ (bitsToNat_lt bits)]
    cases i with
    | zero => cases b <;> simp
    | succ i =>
      have hi' : i < bits.length := Nat.lt_of_succ_lt_succ hi
      have hpos : (b :: bits).length - 1 - (i + 1) = bits.length - 1 - i := by
        rw [List.length_cons]; omega
      rw [hpos, if_pos (by omega), ih hi', List.getElem_cons_succ]

/-- The word of as many bits as a sequence has, most significant first (R12). -/
theorem getMsbD_ofNat_bitsToNat {bits : Bits} {n i : Nat} (hn : bits.length = n) (hi : i < n) :
    bits[i]? = some ((BitVec.ofNat n (bitsToNat bits)).getMsbD i) := by
  subst hn
  have hpos : bits.length - 1 - i < bits.length := by omega
  rw [List.getElem?_eq_getElem hi, ← testBit_bitsToNat hi, BitVec.getMsbD, BitVec.getLsbD_ofNat]
  simp [hi, hpos]

/-- A byte's block holds its bits, the most significant first (R95). -/
theorem byteToBits_eight (b : Byte) : byteToBits b 8 = .ok ((List.range 8).map b.getMsbD) := by
  rw [byteToBits_ok b (le_refl 8)]
  refine congrArg Except.ok (List.map_congr_left fun i hi => ?_)
  simp [BitVec.getMsbD, List.mem_range.mp hi]

/-- Eight bits are the block of the byte they are read as, and of no other (R94, R95). -/
theorem byteToBits_eq_ok_iff {b : Byte} {s : Bits} (hs : s.length = 8) :
    byteToBits b 8 = .ok s ↔ bitsToByte s = .ok b := by
  rw [byteToBits_eight, bitsToByte_ok hs.le, Except.ok.injEq, Except.ok.injEq]
  constructor
  · rintro rfl
    refine BitVec.eq_of_getMsbD_eq fun i hi => ?_
    have hbit := getMsbD_ofNat_bitsToNat hs hi
    simpa [hi] using hbit.symm
  · rintro rfl
    refine List.ext_getElem? fun i => ?_
    by_cases hi : i < 8
    · simp [hi, getMsbD_ofNat_bitsToNat hs hi]
    · simp [hi, hs]

/-- A block function that is undone by another gives a byte function that is undone by the other's (R184). -/
theorem codeByte_undone {f g : Bits → Except Stop Bits} (h : UndoneBy f g) {b r : Byte} (hr : codeByte f b = .ok r) :
    codeByte g r = .ok b := by
  have hblock := byteToBits_eight b
  have hlen : ((List.range 8).map b.getMsbD).length = 8 := by simp
  obtain ⟨t, ht, hft, hgt⟩ := h _ hlen
  obtain ⟨t', hft', htr⟩ := (codeByte_eq_ok_iff hblock).mp hr
  obtain rfl : t = t' := Except.ok.inj (hft.symm.trans hft')
  exact (codeByte_eq_ok_iff ((byteToBits_eq_ok_iff ht).mpr htr)).mpr ⟨_, hgt, (byteToBits_eq_ok_iff hlen).mp hblock⟩

/-- A byte function that is undone byte by byte is undone on messages (R182). -/
theorem codeBytes_undone {f g : Bits → Except Stop Bits} (h : UndoneBy f g) {bytes rs : List Byte}
    (hrs : codeBytes f bytes = .ok rs) : codeBytes g rs = .ok bytes := by
  induction bytes generalizing rs with
  | nil =>
    obtain rfl : [] = rs := Except.ok.inj hrs
    rfl
  | cons b bs ih =>
    obtain ⟨r, rest, hr, hrest, rfl⟩ := codeBytes_cons_eq_ok_iff.mp hrs
    exact codeBytes_cons_eq_ok_iff.mpr ⟨b, bs, codeByte_undone h hr, ih hrest, rfl⟩

/-- The block and the steps of an encrypted byte (R191). -/
theorem encryptByte_eq_ok_iff {c : Config} {b r : Byte} {key : Bits} :
    encryptByte c b key = .ok r ↔
      ∃ k1 k2 block t : Bits, subkey1 key = .ok k1 ∧ subkey2 key = .ok k2 ∧ byteToBits b 8 = .ok block ∧
        encryptBlock c block k1 k2 = .ok t ∧ bitsToByte t = .ok r := by
  simp only [encryptByte, codeByte, blockBits, bind_eq_ok_iff, exists_and_left]

/-- The block and the steps of a decrypted byte (R192). -/
theorem decryptByte_eq_ok_iff {c : Config} {b r : Byte} {key : Bits} :
    decryptByte c b key = .ok r ↔
      ∃ k1 k2 block t : Bits, subkey1 key = .ok k1 ∧ subkey2 key = .ok k2 ∧ byteToBits b 8 = .ok block ∧
        decryptBlock c block k1 k2 = .ok t ∧ bitsToByte t = .ok r := by
  simp only [decryptByte, codeByte, blockBits, bind_eq_ok_iff, exists_and_left]

/-- A byte encrypts to another exactly when that one decrypts to it (R182). -/
theorem encryptByte_eq_ok_iff_decryptByte {c : Config} {b r : Byte} {key : Bits} (hkey : key.length = 10) :
    encryptByte c b key = .ok r ↔ decryptByte c r key = .ok b := by
  obtain ⟨k1, k2, hk1, hk2, h1, h2⟩ := subkeys_ok hkey
  simp only [encryptByte, decryptByte, hk1, hk2, ok_bind]
  exact ⟨codeByte_undone (blockPipeline_undoneBy c h1 h2), codeByte_undone (blockPipeline_undoneBy c h2 h1)⟩

/-- A message encrypts to another exactly when that one decrypts to it (R182). -/
theorem encryptBytes_eq_ok_iff_decryptBytes {c : Config} {bytes rs : List Byte} {key : Bits} (hkey : key.length = 10) :
    encryptBytes c bytes key = .ok rs ↔ decryptBytes c rs key = .ok bytes := by
  obtain ⟨k1, k2, hk1, hk2, h1, h2⟩ := subkeys_ok hkey
  rw [encryptBytes_eq_codeBytes hk1 hk2, decryptBytes_eq_codeBytes hk1 hk2]
  exact ⟨codeBytes_undone (blockPipeline_undoneBy c h1 h2), codeBytes_undone (blockPipeline_undoneBy c h2 h1)⟩

/-- Byte `j` of an encrypted message is byte `j` of the message, encrypted (R180, R184). -/
theorem getElem?_of_encryptBytes {c : Config} {bytes rs : List Byte} {key : Bits} (hkey : key.length = 10)
    (h : encryptBytes c bytes key = .ok rs) {j : Nat} {b : Byte} (hj : bytes[j]? = some b) :
    ∃ r, rs[j]? = some r ∧ encryptByte c b key = .ok r := by
  obtain ⟨k1, k2, hk1, hk2, -, -⟩ := subkeys_ok hkey
  rw [encryptBytes_eq_codeBytes hk1 hk2] at h
  obtain ⟨r, hr, hrj⟩ := getElem?_of_codeBytes h hj
  exact ⟨r, hrj, by rw [encryptByte, hk1, hk2, ok_bind, ok_bind, hr]⟩

/-- Byte `j` of a decrypted message is byte `j` of the message, decrypted (R181, R184). -/
theorem getElem?_of_decryptBytes {c : Config} {bytes rs : List Byte} {key : Bits} (hkey : key.length = 10)
    (h : decryptBytes c bytes key = .ok rs) {j : Nat} {b : Byte} (hj : bytes[j]? = some b) :
    ∃ r, rs[j]? = some r ∧ decryptByte c b key = .ok r := by
  obtain ⟨k1, k2, hk1, hk2, -, -⟩ := subkeys_ok hkey
  rw [decryptBytes_eq_codeBytes hk1 hk2] at h
  obtain ⟨r, hr, hrj⟩ := getElem?_of_codeBytes h hj
  exact ⟨r, hrj, by rw [decryptByte, hk1, hk2, ok_bind, ok_bind, hr]⟩

/-- A message of one byte is that byte encrypted, under any key (R184). -/
theorem encryptBytes_singleton (c : Config) (b : Byte) (key : Bits) :
    encryptBytes c [b] key = (encryptByte c b key >>= fun r => .ok [r]) := by
  simp only [encryptBytes, encryptByte, codeBytes, bind_assoc, ok_bind]

/-- A message of one byte is that byte decrypted, under any key (R184). -/
theorem decryptBytes_singleton (c : Config) (b : Byte) (key : Bits) :
    decryptBytes c [b] key = (decryptByte c b key >>= fun r => .ok [r]) := by
  simp only [decryptBytes, decryptByte, codeBytes, bind_assoc, ok_bind]

/-- The response of a success, with its length byte (R66). -/
theorem respondOK_eq (s : State) {rs : List Byte} {n : Nat} (hn : rs.length = n) :
    respondOK s rs = { s with tx := s.tx ++ (0x00 :: BitVec.ofNat 8 n :: rs) } := by
  subst hn
  rfl

/-- A response of one byte shows the byte. -/
theorem respondOK_byte_inj {s : State} {r r' : Byte} (h : respondOK s [r] = respondOK s [r']) : r = r' := by
  have htx : s.tx ++ okFrame [r] = s.tx ++ okFrame [r'] := congrArg State.tx h
  simpa [okFrame, responseFrame] using htx

/-- ENCB, DECB, ENCM and DECM without a key answer `05 00` (R226). -/
theorem exec_data_unset {i : Instr} (hi : ∀ p, i ≠ .loadkey p) {s : State} (hk : s.keyv = false) :
    exec i s = .next { s with tx := s.tx ++ [0x05, 0x00] } := by
  obtain ⟨hinstalled, -⟩ | ⟨-, hunset⟩ := exec_data_cases hi s
  · simp [hk] at hinstalled
  · exact hunset

/-- With a key installed, what ENCB answers is the encrypted byte and no other (R191). -/
theorem exec_encb_eq_iff {d r : Byte} {s : State} (hk : s.keyv = true) :
    exec (.encb d) s = .next { s with tx := s.tx ++ [0x00, 0x01, r] } ↔ encryptByte engine d (bitsOfKey s.key) = .ok r := by
  refine ⟨fun h => ?_, exec_encb_installed hk⟩
  obtain ⟨r', hr'⟩ := encryptByte_ok engine d (bitsOfKey_length s.key)
  obtain rfl : r' = r := respondOK_byte_inj (Host.Outcome.next.inj ((exec_encb_installed hk hr').symm.trans h))
  exact hr'

/-- With a key installed, what DECB answers is the decrypted byte and no other (R192). -/
theorem exec_decb_eq_iff {d r : Byte} {s : State} (hk : s.keyv = true) :
    exec (.decb d) s = .next { s with tx := s.tx ++ [0x00, 0x01, r] } ↔ decryptByte engine d (bitsOfKey s.key) = .ok r := by
  refine ⟨fun h => ?_, exec_decb_installed hk⟩
  obtain ⟨r', hr'⟩ := decryptByte_ok engine d (bitsOfKey_length s.key)
  obtain rfl : r' = r := respondOK_byte_inj (Host.Outcome.next.inj ((exec_decb_installed hk hr').symm.trans h))
  exact hr'

/-- ENCB answers `r` for `d` exactly where DECB answers `d` for `r`, in any two states that hold the same key (R192). -/
theorem exec_encb_iff_exec_decb {d r : Byte} {s t : State} (hs : s.keyv = true) (ht : t.keyv = true) (hkey : t.key = s.key) :
    exec (.encb d) s = .next { s with tx := s.tx ++ [0x00, 0x01, r] } ↔
      exec (.decb r) t = .next { t with tx := t.tx ++ [0x00, 0x01, d] } := by
  rw [exec_encb_eq_iff hs, exec_decb_eq_iff ht, hkey, encryptByte_eq_ok_iff_decryptByte (bitsOfKey_length s.key)]

/-- With a key installed ENCB answers some byte (R191). -/
theorem exec_encb_answers (d : Byte) {s : State} (hk : s.keyv = true) :
    ∃ r : Byte, exec (.encb d) s = .next { s with tx := s.tx ++ [0x00, 0x01, r] } :=
  (encryptByte_ok engine d (bitsOfKey_length s.key)).imp fun _ => (exec_encb_eq_iff hk).mpr

/-- With a key installed DECB answers some byte (R192). -/
theorem exec_decb_answers (d : Byte) {s : State} (hk : s.keyv = true) :
    ∃ r : Byte, exec (.decb d) s = .next { s with tx := s.tx ++ [0x00, 0x01, r] } :=
  (decryptByte_ok engine d (bitsOfKey_length s.key)).imp fun _ => (exec_decb_eq_iff hk).mpr

/-- Under one key ENCB answers different bytes differently: DECB of the answer is the byte (R191). -/
theorem exec_encb_inj {d d' : Byte} {s : State} (hk : s.keyv = true) (h : exec (.encb d') s = exec (.encb d) s) : d' = d := by
  obtain ⟨r, hr⟩ := exec_encb_answers d hk
  have back := (exec_encb_iff_exec_decb hk hk rfl).mp hr
  have back' := (exec_encb_iff_exec_decb hk hk rfl).mp (h.trans hr)
  exact respondOK_byte_inj (Host.Outcome.next.inj (back'.symm.trans back))

/-- Under one key DECB answers different bytes differently: ENCB of the answer is the byte (R192). -/
theorem exec_decb_inj {d d' : Byte} {s : State} (hk : s.keyv = true) (h : exec (.decb d') s = exec (.decb d) s) : d' = d := by
  obtain ⟨r, hr⟩ := exec_decb_answers d hk
  have back := (exec_encb_iff_exec_decb hk hk rfl).mpr hr
  have back' := (exec_encb_iff_exec_decb hk hk rfl).mpr (h.trans hr)
  exact respondOK_byte_inj (Host.Outcome.next.inj (back'.symm.trans back))

/-- ENCB and DECB frames with `LEN` other than 1 answer `06 00` and change nothing else (R71, R195). -/
theorem transact_wrongLength {op : Byte} {p : List Byte} (hop : op = opEncb ∨ op = opDecb) (hlen : p.length ≠ 1) (s : State) :
    transact ⟨op, p⟩ s = .next { s with tx := s.tx ++ [0x06, 0x00] } :=
  transact_illegal s (decodeFrame_wrongLength hop hlen)

/-- The engine's valid key strings: 10 characters `0x30` or `0x31` (R190). -/
theorem validKeyString_engine_iff {p : List Byte} :
    validKeyString engine p = true ↔ p.length = 10 ∧ ∀ b ∈ p, b = 0x30 ∨ b = 0x31 := by
  simp [validKeyString, engine]

/-- Bit `i` of the key of a key string is 1 exactly where its character `i` is `CHAR_ONE` (R69). -/
theorem getMsbD_keyOfString {c : Config} {p : List Byte} (hp : p.length = 10) {i : Nat} (hi : i < 10) :
    (keyOfString c p).getMsbD i = true ↔ p[i]? = some c.charOne := by
  have hbit : (p.map (· == c.charOne))[i]? = some ((keyOfString c p).getMsbD i) :=
    getMsbD_ofNat_bitsToNat (by rw [List.length_map, hp]) hi
  rw [List.getElem?_map, List.getElem?_eq_getElem (hp.symm ▸ hi), Option.map_some, Option.some.injEq] at hbit
  rw [← hbit, beq_iff_eq, List.getElem?_eq_getElem (hp.symm ▸ hi), Option.some.injEq]

/-- Settles O23: `exec_loadkey_cases` gives the two outcomes, `validKeyString_engine_iff` tells which, and `getMsbD_keyOfString` reads the
installed key. -/
theorem loadkeyInstallsOrClearsTheKey : Obligations.LoadkeyInstallsOrClearsTheKey := by
  intro p s
  rw [← validKeyString_engine_iff]
  obtain ⟨hvalid, hexec⟩ | ⟨hinvalid, hexec⟩ := exec_loadkey_cases p s
  · obtain ⟨hlen, -⟩ := validKeyString_engine_iff.mp hvalid
    exact ⟨fun _ => ⟨keyOfString engine p, fun _ => getMsbD_keyOfString hlen, hexec⟩, fun hn => absurd hvalid hn⟩
  · exact ⟨fun hv => by simp [hinvalid] at hv, fun _ => ⟨_, _, hexec⟩⟩

/-- Settles O24: ENCB answers the byte its steps give, and DECB on the same key takes it back, which makes the answer a bijection. -/
theorem encbAnswersTheCiphertext : Obligations.EncbAnswersTheCiphertext := by
  intro d s
  refine ⟨fun hk => ⟨?result, fun d' => exec_encb_inj hk, fun r => ?onto⟩, exec_data_unset (by simp),
    fun p hp => transact_wrongLength (.inl rfl) hp s⟩
  case result =>
    obtain ⟨r, hexec⟩ := exec_encb_answers d hk
    obtain ⟨k1, k2, block, t, hk1, hk2, hblock, ht, hr⟩ := encryptByte_eq_ok_iff.mp ((exec_encb_eq_iff hk).mp hexec)
    exact ⟨k1, k2, block, t, r, hk1, hk2, hblock, ht, hr, hexec⟩
  case onto => exact (exec_decb_answers r hk).imp fun _ => (exec_encb_iff_exec_decb hk hk rfl).mpr

/-- Settles O25: as ENCB, with the two inverse laws from `exec_encb_iff_exec_decb`. -/
theorem decbAnswersThePlaintext : Obligations.DecbAnswersThePlaintext := by
  intro d s
  refine ⟨fun hk => ⟨?result, ?encbFirst, fun d' => exec_decb_inj hk, fun r => ?onto⟩, exec_data_unset (by simp),
    fun p hp => transact_wrongLength (.inr rfl) hp s⟩
  case result =>
    obtain ⟨r, hexec⟩ := exec_decb_answers d hk
    obtain ⟨k1, k2, block, t, hk1, hk2, hblock, ht, hr⟩ := decryptByte_eq_ok_iff.mp ((exec_decb_eq_iff hk).mp hexec)
    exact ⟨k1, k2, block, t, r, hk1, hk2, hblock, ht, hr, hexec,
      fun t ht hkey => (exec_encb_iff_exec_decb ht hk hkey.symm).mpr hexec⟩
  case encbFirst =>
    obtain ⟨r, hexec⟩ := exec_encb_answers d hk
    exact ⟨r, hexec, fun t ht hkey => (exec_encb_iff_exec_decb hk ht hkey).mp hexec⟩
  case onto => exact (exec_encb_answers r hk).imp fun _ => (exec_encb_iff_exec_decb hk hk rfl).mp

/-- ENCM with a key installed, with the length byte of its response (R193). -/
theorem exec_encm_response {p rs : List Byte} {n : Nat} {s : State} (hk : s.keyv = true)
    (hrs : encryptBytes engine p (bitsOfKey s.key) = .ok rs) (hn : rs.length = n) :
    exec (.encm p) s = .next { s with tx := s.tx ++ (0x00 :: BitVec.ofNat 8 n :: rs) } := by
  rw [exec_encm_installed hk hrs, respondOK_eq s hn]

/-- DECM with a key installed, with the length byte of its response (R194). -/
theorem exec_decm_response {p rs : List Byte} {n : Nat} {s : State} (hk : s.keyv = true)
    (hrs : decryptBytes engine p (bitsOfKey s.key) = .ok rs) (hn : rs.length = n) :
    exec (.decm p) s = .next { s with tx := s.tx ++ (0x00 :: BitVec.ofNat 8 n :: rs) } := by
  rw [exec_decm_installed hk hrs, respondOK_eq s hn]

/-- ENCM of one byte is ENCB of it, with or without a key (R193). -/
theorem exec_encm_singleton (d : Byte) (s : State) : exec (.encm [d]) s = exec (.encb d) s :=
  congrArg (dataCommand s) (funext (encryptBytes_singleton engine d))

/-- DECM of one byte is DECB of it, with or without a key (R194). -/
theorem exec_decm_singleton (d : Byte) (s : State) : exec (.decm [d]) s = exec (.decb d) s :=
  congrArg (dataCommand s) (funext (decryptBytes_singleton engine d))

/-- Settles O26: the result is `encryptBytes_ok`'s, of the payload's length, and `getElem?_of_encryptBytes` reads it byte by byte. -/
theorem encmAnswersTheCiphertexts : Obligations.EncmAnswersTheCiphertexts := by
  intro p s hp
  refine ⟨fun hk => ?result, exec_data_unset (by simp), (exec_encm_singleton · s)⟩
  case result =>
    have hkey := bitsOfKey_length s.key
    obtain ⟨rs, hrs, hlen⟩ := encryptBytes_ok engine p hkey
    exact ⟨BitVec.ofNat 8 p.length, rs, lengthByte_toNat hp, hlen, hrs, fun _ _ => getElem?_of_encryptBytes hkey hrs,
      exec_encm_response hk hrs hlen⟩

/-- Settles O27: as ENCM, and what ENCM answered decrypts to its payload (`encryptBytes_eq_ok_iff_decryptBytes`) wherever the key is the
same. -/
theorem decmAnswersThePlaintexts : Obligations.DecmAnswersThePlaintexts := by
  intro p s hp
  refine ⟨fun hk => ?result, exec_data_unset (by simp), (exec_decm_singleton · s)⟩
  case result =>
    have hkey := bitsOfKey_length s.key
    obtain ⟨rs, hrs, hlen⟩ := decryptBytes_ok engine p hkey
    obtain ⟨cs, hcs, hcsLength⟩ := encryptBytes_ok engine p hkey
    refine ⟨BitVec.ofNat 8 p.length, rs, lengthByte_toNat hp, hlen, hrs, fun _ _ => getElem?_of_decryptBytes hkey hrs,
      exec_decm_response hk hrs hlen, cs, hcsLength, exec_encm_response hk hcs hcsLength, fun t ht htkey => ?_⟩
    have hback : decryptBytes engine cs (bitsOfKey t.key) = .ok p := by
      rw [htkey, ← encryptBytes_eq_ok_iff_decryptBytes hkey, hcs]
    exact exec_decm_response ht hback rfl

end Sys2Proof.Machine

/-! PROOFS. The family of 60_exceptions.md: the statuses a frame can be answered with (R221), which leave out the three
internal-consistency faults (R228). -/

namespace Sys2Proof.Machine

/-- Whatever a frame appends to the response begins with the status OK, `InvalidKeyFormat`, `KeyNotSet` or `IllegalCommand` (R221). -/
theorem transact_status (f : Frame) (s : State) :
    ∃ (t : State) (status : Byte) (result : List Byte), transact f s = .next t ∧ t.tx = s.tx ++ responseFrame status result ∧
      (status = codeOK ∨ status = ErrorKind.code .invalidKeyFormat ∨ status = ErrorKind.code .keyNotSet ∨
        status = ErrorKind.code .illegalCommand) := by
  cases hf : decodeFrame f with
  | ok i =>
    obtain ⟨t, status, result, hexec, htx, hstatus⟩ := exec_status i s
    exact ⟨t, status, result, (transact_command s hf).trans hexec, htx, hstatus.imp_right (·.imp_right .inl)⟩
  | error why => exact ⟨_, _, _, transact_illegal s hf, rfl, .inr (.inr (.inr rfl))⟩

/-- Settles O40: the statuses of `transact_status` are none of the three faults' codes, and an error kind that an internal function raises
is answered by `dataCommand_raise`. -/
theorem internalFaultsAreNeverAnswered : Obligations.InternalFaultsAreNeverAnswered := by
  refine ⟨fun f s => ?_, fun s g e hk hg => dataCommand_raise hk hg⟩
  obtain ⟨t, status, result, ht, htx, hstatus⟩ := transact_status f s
  refine ⟨t, status, _, ht, htx, ?_⟩
  obtain rfl | rfl | rfl | rfl := hstatus <;> decide

end Sys2Proof.Machine

/-! PROOFS. The decoder (R65 to R71) in both directions: a command and its frame determine each other, and so do a stream that decodes and
the command with the bytes after it. -/

namespace Sys2Proof

/-- A stream decodes to a command exactly when the frame at its head does. -/
theorem decode_eq_ok_iff {bytes rest : List Byte} {i : Instr} :
    decode bytes = .ok (i, rest) ↔ ∃ f, cutFrame bytes = some (f, rest) ∧ decodeFrame f = .ok i := by
  rw [decode]
  cases hcut : cutFrame bytes with
  | none => simp
  | some cut => cases hframe : decodeFrame cut.1 <;> simp [hframe, Prod.ext_iff, and_comm]

/-- A stream is refused as illegal exactly when the frame at its head is whole and names no operation (R70, R71). -/
theorem decode_eq_illegal_iff {bytes : List Byte} {why : Illegal} :
    decode bytes = .error (.illegal why) ↔ ∃ f rest, cutFrame bytes = some (f, rest) ∧ decodeFrame f = .error why := by
  rw [decode]
  cases hcut : cutFrame bytes with
  | none => simp
  | some cut => cases hframe : decodeFrame cut.1 <;> simp [hframe, Prod.ext_iff]

/-- The opcode of the command a frame decodes to is the frame's (R67). -/
theorem decodeFrame_op {f : Frame} {i : Instr} (h : decodeFrame f = .ok i) : i.op = f.op := by
  simp only [decodeFrame] at h
  split_ifs at h with h1 h2 h3 h4 h5
  · cases h; exact h1.symm
  · obtain ⟨d, -, rfl⟩ := oneByte_ok h; exact h2.symm
  · obtain ⟨d, -, rfl⟩ := oneByte_ok h; exact h3.symm
  · cases h; exact h4.symm
  · cases h; exact h5.symm

/-- A frame decodes to a command exactly when it is that command's frame (R67, R68). -/
theorem decodeFrame_eq_ok_iff {f : Frame} {i : Instr} : decodeFrame f = .ok i ↔ f = ⟨i.op, i.payload⟩ := by
  constructor
  · intro h
    rw [decodeFrame_op h, Machine.decodeFrame_payload h]
  · rintro rfl
    exact decodeFrame_op_payload i

/-- A command is well formed exactly when its payload fits a frame (R65, R71). -/
theorem wf_iff_payload_fits (i : Instr) : i.wf = true ↔ i.payload.length ≤ lenMax := by
  cases i <;> simp [Instr.wf, fitsFrame, Instr.payload]

/-- Settles O30: the frame of a well-formed command is cut off whole (`cutFrame_encodeFrame`) and decodes to the command. -/
theorem decodeOfEncodeIsTheCommand : Obligations.DecodeOfEncodeIsTheCommand := by
  intro i rest hwf
  exact decode_eq_ok_iff.mpr
    ⟨_, cutFrame_encodeFrame ((wf_iff_payload_fits i).mp hwf) rest, decodeFrame_op_payload i⟩

/-- Settles O31: the frame cut off is the command's (`decodeFrame_eq_ok_iff`), and `cutFrame_some` gives its bytes and its bound. -/
theorem encodeOfDecodeIsTheFrame : Obligations.EncodeOfDecodeIsTheFrame := by
  intro bytes rest i h
  obtain ⟨f, hcut, hframe⟩ := decode_eq_ok_iff.mp h
  obtain rfl := decodeFrame_eq_ok_iff.mp hframe
  obtain ⟨hbytes, hfits⟩ := cutFrame_some hcut
  exact ⟨(wf_iff_payload_fits i).mpr hfits, hbytes.symm⟩

end Sys2Proof

/-! PROOFS. The two invariants of every step: the channels hold at most one frame or one response (R62, R65, R66), and the streams are
those of the transaction level (R62, R63). -/

namespace Sys2Proof.Machine

/-- The inversion of a frame that is answered: one response, of no more result bytes than the payload, and nothing else written but the
key and its count of free values (R62, R196). -/
theorem transact_next {f : Frame} {s t : State} (h : transact f s = .next t) :
    ∃ (k : Key) (v : Bool) (n : Nat) (status : Byte) (result : List Byte), result.length ≤ f.payload.length ∧
      t = { s with key := k, keyv := v, draws := n, tx := s.tx ++ responseFrame status result } := by
  obtain ⟨k, v, n, status, result, hlen, hanswer⟩ := transact_answer f s.key s.keyv s.draws
  exact ⟨k, v, n, status, result, hlen, Host.Outcome.next.inj (h.symm.trans (hanswer s rfl rfl rfl))⟩

/-- When one more byte completes a frame, that byte is its last: nothing lies beyond the frame (R65). -/
theorem cutFrame_append_byte {bytes rest : List Byte} {b : Byte} {f : Frame} (hbefore : cutFrame bytes = none)
    (hafter : cutFrame (bytes ++ [b]) = some (f, rest)) : rest = [] := by
  obtain ⟨hstream, hfits⟩ := cutFrame_some hafter
  obtain rfl | ⟨rest', c, rfl⟩ := List.eq_nil_or_concat rest
  · rfl
  · rw [List.concat_eq_append, ← List.append_assoc] at hstream
    have hbytes : bytes = encodeFrame f ++ rest' := (List.append_inj' hstream rfl).1
    rw [hbytes, cutFrame_encodeFrame hfits] at hbefore
    cases hbefore

/-- With nothing received, only the length of the pending response matters. -/
theorem channelInv_of_rx_nil {s : State} (hrx : s.rx = []) (htx : s.tx.length ≤ lenMax + 2) : ChannelInv s := by
  refine ⟨.inr hrx, fun f rest hcut => ?_, htx⟩
  rw [hrx] at hcut
  cases hcut

/-- A moment of the interface keeps the channels well formed. -/
theorem interfaceMoment_keeps_channelInv (m : Moment) {s : State} (h : ChannelInv s) : ChannelInv (interfaceMoment m s) := by
  obtain ⟨-, e⟩ | ⟨-, b, tail, htx, -, e⟩ | ⟨-, b, htx, hcut, -, e⟩ | ⟨-, e⟩ := interfaceMoment_cases m s <;> rw [e]
  case inl => exact channelInv_of_rx_nil rfl (Nat.zero_le _)
  case inr.inl =>
    obtain ⟨hidle, -, hlen⟩ := h
    have hrx : s.rx = [] := hidle.resolve_left (by simp [htx])
    exact channelInv_of_rx_nil hrx (by simp [htx] at hlen ⊢; omega)
  case inr.inr.inl => exact ⟨.inl htx, fun f rest => cutFrame_append_byte hcut, by simp [htx]⟩
  case inr.inr.inr => exact h

/-- Settles O55: a moment keeps the invariant, and an execution empties the receive buffer, which held the frame alone, and leaves one
response of at most `LEN_MAX` result bytes. -/
theorem stepKeepsChannelInv : Obligations.StepKeepsChannelInv := by
  intro s t h hstep
  obtain ⟨m, rest, -, -, rfl⟩ | ⟨f, rest, htx, hcut, hrun⟩ := step_next hstep
  · exact interfaceMoment_keeps_channelInv m (s := { s with host := rest }) h
  · obtain ⟨-, hone, -⟩ := h
    obtain rfl := hone f rest hcut
    obtain ⟨-, hfits⟩ := cutFrame_some hcut
    obtain ⟨k, v, n, status, result, hlen, rfl⟩ := transact_next hrun
    exact channelInv_of_rx_nil rfl (by simpa [htx, responseFrame] using hlen.trans hfits)

/-- Settles O56: nothing is received and nothing pending. -/
theorem resetHasChannelInv : Obligations.ResetHasChannelInv :=
  channelInv_of_rx_nil rfl (Nat.zero_le _)

/-- A fresh state is where the empty run leaves the transaction level. -/
theorem streamsAgree_fresh (key : Key) (draws : Nat) (host : List Moment) : StreamsAgree (State.fresh key draws host) :=
  ⟨key, draws, [], State.fresh key draws [], by simp, rfl, rfl, rfl, rfl, rfl, rfl⟩

/-- A moment of the interface keeps the agreement: a byte that crosses moves between a buffer and its stream, and `rst` begins a new run. -/
theorem interfaceMoment_keeps_streamsAgree (m : Moment) {s : State} (h : StreamsAgree s) :
    StreamsAgree (interfaceMoment m s) := by
  obtain ⟨-, e⟩ | ⟨-, b, tail, htx, -, e⟩ | ⟨-, b, -, -, -, e⟩ | ⟨-, e⟩ := interfaceMoment_cases m s <;> rw [e]
  case inl => exact streamsAgree_fresh ..
  case inr.inl =>
    obtain ⟨key, draws, frames, t, hfits, hrun, hcmd, hrsp, hregs⟩ := h
    exact ⟨key, draws, frames, t, hfits, hrun, hcmd, by simpa [htx] using hrsp, hregs⟩
  case inr.inr.inl =>
    obtain ⟨key, draws, frames, t, hfits, hrun, hcmd, hrsp, hregs⟩ := h
    exact ⟨key, draws, frames, t, hfits, hrun, by simp [hcmd], hrsp, hregs⟩
  case inr.inr.inr => exact h

/-- An executed frame keeps the agreement: the transaction level runs it too, from the same key, and answers the same response. -/
theorem transact_keeps_streamsAgree {f : Frame} {rest : List Byte} {s t : State} (h : StreamsAgree s)
    (hcut : cutFrame s.rx = some (f, rest)) (hrun : transact f (dropFrame s rest) = .next t) : StreamsAgree t := by
  obtain ⟨key, draws, frames, u, hfits, hframes, hcmd, hrsp, hkey, hkeyv, hdraws⟩ := h
  obtain ⟨hstream, hfit⟩ := cutFrame_some hcut
  obtain ⟨k, v, n, status, result, -, hanswer⟩ := transact_answer f s.key s.keyv s.draws
  have hu := hanswer u hkey.symm hkeyv.symm hdraws.symm
  obtain rfl := Host.Outcome.next.inj ((hanswer (dropFrame s rest) rfl rfl rfl).symm.trans hrun)
  refine ⟨key, draws, frames ++ [f], _, ?_, (runFrames_append [f] hframes).trans (runFrames_cons [] hu), ?_, ?_, rfl, rfl, rfl⟩
  · simpa [or_imp, forall_and] using ⟨hfits, hfit⟩
  · simp [hcmd, hstream]
  · simp [← hrsp]

/-- Settles O57: a moment and an execution each keep the agreement. -/
theorem stepKeepsStreamsAgree : Obligations.StepKeepsStreamsAgree := by
  intro s t h hstep
  obtain ⟨m, rest, -, -, rfl⟩ | ⟨f, rest, -, hcut, hrun⟩ := step_next hstep
  · exact interfaceMoment_keeps_streamsAgree m (s := { s with host := rest }) h
  · exact transact_keeps_streamsAgree h hcut hrun

/-- Settles O58: reset is a fresh state. -/
theorem resetHasStreamsAgree : Obligations.ResetHasStreamsAgree := streamsAgree_fresh ..

end Sys2Proof.Machine

/-! PROOFS. The rest of 40_bitvector.md and 41_permutation.md: the halves (R90, R91), `byteToBits` (R95), what a table selects and its
linearity (R110), and the facts of R118 and R119 about the six tables. -/

namespace Sys2Proof.Machine

/-- Settles O1: on an even length `leftHalf` is the library's `take` of half of it. -/
theorem leftHalfTakesFirstHalf : Obligations.LeftHalfTakesFirstHalf := by
  intro seq
  refine ⟨fun heven => ⟨seq.take (seq.length / 2), by simp [leftHalf, heven], ?_, fun i hi => ?_⟩, fun hodd => by
    simp [leftHalf, hodd]⟩
  · rw [List.length_take]; omega
  · rw [List.getElem?_take_of_lt hi]

/-- Settles O2: on an even length the halves are the library's `take` and `drop`, which together are the sequence. -/
theorem rightHalfTakesSecondHalf : Obligations.RightHalfTakesSecondHalf := by
  intro seq
  refine ⟨fun heven => ⟨seq.take (seq.length / 2), seq.drop (seq.length / 2), by simp [leftHalf, heven],
    by simp [rightHalf, heven], ?_, fun i _ => List.getElem?_drop, List.take_append_drop ..⟩, fun hodd => by
    simp [rightHalf, hodd]⟩
  rw [List.length_drop]; omega

/-- `byteToBits` of a size above 8 (U3). -/
theorem byteToBits_refused (b : Byte) {n : Nat} (h : 8 < n) : byteToBits b n = .error (.refuse .sizeAboveEight) := by
  simp [byteToBits, h]

/-- Settles O6: `byteToBits_ok` gives the bits, and `byteToBits_eq_ok_iff` makes a byte and its block the same information. -/
theorem byteToBitsReadsLowBits : Obligations.ByteToBitsReadsLowBits := by
  intro b size
  refine ⟨fun h => ⟨_, byteToBits_ok b h, by simp, fun i hi => by simp [hi]⟩, byteToBits_refused b, ?_, fun s hs => ?_⟩
  · have hblock := byteToBits_eight b
    exact bind_eq_ok_iff.mpr ⟨_, hblock, (byteToBits_eq_ok_iff (by simp)).mp hblock⟩
  · have hbyte := bitsToByte_ok hs.le
    exact bind_eq_ok_iff.mpr ⟨_, hbyte, (byteToBits_eq_ok_iff hs).mpr hbyte⟩

/-- A table entry that is a position of the input selects its bit (R110). -/
theorem readAt_inRange {input : Bits} {entry : Int} (h : 0 ≤ entry ∧ entry < input.length) :
    readAt input entry = .ok (input.getD entry.toNat false) := by
  have hlt : entry.toNat < input.length := by omega
  exact readAt_eq_ok_iff.mpr ⟨h.1, by simp [hlt]⟩

/-- A table entry that is no position of the input raises `IndexOutOfRange` (R110). -/
theorem readAt_outOfRange {input : Bits} {entry : Int} (h : entry < 0 ∨ input.length ≤ entry) :
    readAt input entry = .error (.raise .indexOutOfRange) := by
  unfold readAt
  split
  case isTrue hneg => rfl
  case isFalse hneg =>
    have hlen : input.length ≤ entry.toNat := by omega
    simp [List.getElem?_eq_none hlen]

/-- A table of positions of the input selects their bits, in the table's order (R110). -/
theorem applyTable_inRange {input : Bits} {table : List Int} (h : ∀ t ∈ table, 0 ≤ t ∧ t < input.length) :
    applyTable input table = .ok (table.map fun t => input.getD t.toNat false) := by
  rw [applyTable_eq_ok_iff, List.forall₂_map_right_iff, List.forall₂_same]
  exact fun t ht => readAt_inRange (h t ht)

/-- A table with an entry that is no position of the input raises `IndexOutOfRange` (R110). -/
theorem applyTable_outOfRange {input : Bits} {table : List Int} (h : ∃ t ∈ table, t < 0 ∨ input.length ≤ t) :
    applyTable input table = .error (.raise .indexOutOfRange) := by
  induction table with
  | nil => simp at h
  | cons entry rest ih =>
    by_cases hentry : entry < 0 ∨ input.length ≤ entry
    · rw [applyTable, readAt_outOfRange hentry, error_bind]
    · have hrest : ∃ t ∈ rest, t < 0 ∨ input.length ≤ t := by simpa [hentry] using h
      rw [applyTable, readAt_inRange (by omega), ok_bind, ih hrest, error_bind]

/-- A bit of the exclusive-or of two sequences of equal length; beyond the end all three read 0. -/
theorem getD_zipWith_xor {a b : Bits} (h : a.length = b.length) (i : Nat) :
    (List.zipWith Bool.xor a b).getD i false = (a.getD i false ^^ b.getD i false) := by
  by_cases hi : i < a.length <;> simp [hi, h ▸ hi]

/-- A table is linear over exclusive-or, its errors included: whether an entry is a position depends on the length alone (R110). -/
theorem applyTable_xorBits {a b : Bits} (h : a.length = b.length) (table : List Int) :
    (xorBits a b >>= fun x => applyTable x table) = (do
      let out ← applyTable a table
      let out' ← applyTable b table
      xorBits out out') := by
  have hx : (List.zipWith Bool.xor a b).length = a.length := by simp [h]
  rw [xorBits_ok h, ok_bind]
  by_cases hrange : ∀ t ∈ table, 0 ≤ t ∧ t < a.length
  · rw [applyTable_inRange hrange, applyTable_inRange (input := b) (h ▸ hrange), applyTable_inRange (hx.symm ▸ hrange), ok_bind,
      ok_bind, xorBits_ok (by simp)]
    simp only [List.zipWith_map_left, List.zipWith_map_right, List.zipWith_self, getD_zipWith_xor h]
  · have hbad : ∃ t ∈ table, t < 0 ∨ a.length ≤ t := by
      push Not at hrange
      obtain ⟨t, ht, hout⟩ := hrange
      exact ⟨t, ht, by omega⟩
    rw [applyTable_outOfRange hbad, applyTable_outOfRange (hx.symm ▸ hbad), error_bind]

/-- Settles O7: `applyTable_inRange` and `applyTable_outOfRange` are the two outcomes, and `applyTable_xorBits` the linearity. -/
theorem applyTableSelectsPositions : Obligations.ApplyTableSelectsPositions := by
  intro input table
  refine ⟨fun h => ⟨_, applyTable_inRange h, by simp, fun i t ht => ?_⟩, applyTable_outOfRange,
    fun other h => applyTable_xorBits h table⟩
  have hlt : t.toNat < input.length := by
    have := h t (List.mem_of_getElem? ht)
    omega
  simp [ht, hlt]

/-- A table of positions of the input raises nothing. -/
theorem applyTable_ne_error {input : Bits} {table : List Int} (h : ∀ t ∈ table, 0 ≤ t ∧ t < input.length) (stop : Stop) :
    applyTable input table ≠ .error stop := by
  rw [applyTable_inRange h]
  nofun

/-- Settles O9: every entry of the six tables is a position of the input it is used on. -/
theorem noTableIsOutOfRange : Obligations.NoTableIsOutOfRange := by
  refine ⟨fun x hx => ⟨?_, ?_⟩, fun x hx => ⟨?_, ?_⟩, fun x hx => ⟨?_, ?_⟩⟩ <;>
    exact applyTable_ne_error (by rw [hx]; decide) _

/-- What is taken back gives its operand again. -/
theorem UndoneBy.bind_eq {f g : Bits → Except Stop Bits} (h : UndoneBy f g) {x : Bits} (hx : x.length = 8) :
    (f x >>= g) = .ok x := by
  obtain ⟨y, -, hfx, hgy⟩ := h x hx
  rw [hfx, ok_bind, hgy]

/-- EP shows each of its four input bits (R119). -/
theorem applyTable_tableEP_inj {x y : Bits} (hx : x.length = 4) (hy : y.length = 4)
    (h : applyTable x tableEP = applyTable y tableEP) : x = y := by
  obtain ⟨x0, x1, x2, x3, rfl⟩ := bits_four hx
  obtain ⟨y0, y1, y2, y3, rfl⟩ := bits_four hy
  simp only [applyTable_tableEP, Except.ok.injEq, List.cons.injEq] at h
  obtain ⟨rfl, rfl, rfl, rfl, -⟩ := h
  rfl

/-- EP wires the same input bit to its first and its seventh output, so no input gives outputs that differ there (R119). -/
theorem applyTable_tableEP_ne (x : Bits) : applyTable x tableEP ≠ .ok (true :: List.replicate 7 false) := by
  intro h
  simp only [applyTable_eq_ok_iff, tableEP, List.replicate, List.forall₂_cons] at h
  obtain ⟨hfirst, -, -, -, -, -, hseventh, -⟩ := h
  exact absurd (hfirst.symm.trans hseventh) (by decide)

/-- Settles O10: the lists are compared entry by entry, each initial permutation undoes the other, and EP is injective but not onto. -/
theorem initialPermutationsAreInverse : Obligations.InitialPermutationsAreInverse := by
  refine ⟨by decide, fun x hx => ⟨tableIP_undoneBy.bind_eq hx, tableIPInverse_undoneBy.bind_eq hx⟩, fun x y hx hy => ?_,
    true :: List.replicate 7 false, rfl, applyTable_tableEP_ne⟩
  exact applyTable_tableEP_inj hx hy

end Sys2Proof.Machine

/-! PROOFS. The inverse laws of 44_round.md, 46_block_cipher.md and 47_message_codec.md for every content of the boxes (R153, R172, R173,
R176, R182), and the published values under the default boxes. -/

namespace Sys2Proof.Machine

/-- Settles O15: a round is undone by the same round (`roundBlock_undoneBy`). -/
theorem roundIsItsOwnInverse : Obligations.RoundIsItsOwnInverse :=
  fun c _ _ hx hk => (roundBlock_undoneBy c hk).bind_eq hx

/-- Encryption is undone by decryption (R172). -/
theorem encryptBlock_undoneBy (c : Config) {k1 k2 : Bits} (h1 : k1.length = 8) (h2 : k2.length = 8) :
    UndoneBy (encryptBlock c · k1 k2) (decryptBlock c · k1 k2) := blockPipeline_undoneBy c h1 h2

/-- Decryption is undone by encryption (R172). -/
theorem decryptBlock_undoneBy (c : Config) {k1 k2 : Bits} (h1 : k1.length = 8) (h2 : k2.length = 8) :
    UndoneBy (decryptBlock c · k1 k2) (encryptBlock c · k1 k2) := blockPipeline_undoneBy c h2 h1

/-- Settles O17: each direction is undone by the other. -/
theorem blockRoundTrip : Obligations.BlockRoundTrip :=
  fun c _ _ _ hb h1 h2 => ⟨(encryptBlock_undoneBy c h1 h2).bind_eq hb, (decryptBlock_undoneBy c h1 h2).bind_eq hb⟩

/-- What `f` answers on a block, `g` takes back to that block. -/
theorem UndoneBy.back {f g : Bits → Except Stop Bits} (h : UndoneBy f g) {x y : Bits} (hx : x.length = 8) (hfx : f x = .ok y) :
    g y = .ok x := by
  obtain ⟨y', -, hfx', hgy'⟩ := h x hx
  obtain rfl : y' = y := Except.ok.inj (hfx'.symm.trans hfx)
  exact hgy'

/-- A function that is undone answers different blocks differently. -/
theorem UndoneBy.inj {f g : Bits → Except Stop Bits} (h : UndoneBy f g) {x x' : Bits} (hx : x.length = 8) (hx' : x'.length = 8)
    (heq : f x = f x') : x = x' := by
  obtain ⟨y, -, hfx, hgy⟩ := h x hx
  exact Except.ok.inj (hgy.symm.trans (h.back hx' (heq.symm.trans hfx)))

/-- A function that undoes another answers every block. -/
theorem UndoneBy.onto {f g : Bits → Except Stop Bits} (h : UndoneBy f g) {x : Bits} (hx : x.length = 8) :
    ∃ y : Bits, y.length = 8 ∧ g y = .ok x := by
  obtain ⟨y, hy, -, hgy⟩ := h x hx
  exact ⟨y, hy, hgy⟩

/-- Settles O18: two functions that undo each other are bijections of the blocks, each the other's inverse. -/
theorem blockCipherPermutesBlocks : Obligations.BlockCipherPermutesBlocks := by
  intro c k1 k2 h1 h2
  have henc := encryptBlock_undoneBy c h1 h2
  have hdec := decryptBlock_undoneBy c h1 h2
  exact ⟨fun _ _ => henc.inj, fun _ => hdec.onto, fun _ _ => hdec.inj, fun _ => henc.onto,
    fun _ _ hb ht => ⟨henc.back hb, hdec.back ht⟩⟩

/-- A sequence with one of its bits flipped is another sequence. -/
theorem ne_set_not {b : Bits} {i : Nat} {x : Bool} (h : b[i]? = some x) : b ≠ b.set i (!x) := by
  intro heq
  obtain ⟨hi, -⟩ := List.getElem?_eq_some_iff.mp h
  have hbit : b[i]? = some (!x) := by
    rw [heq]
    exact List.getElem?_set_self hi
  simp [h] at hbit

/-- A function that is undone answers, on two different blocks, two different blocks. -/
theorem UndoneBy.answers_ne {f g : Bits → Except Stop Bits} (h : UndoneBy f g) {x x' : Bits} (hx : x.length = 8)
    (hx' : x'.length = 8) (hne : x ≠ x') : ∃ y y' : Bits, f x = .ok y ∧ f x' = .ok y' ∧ y ≠ y' := by
  obtain ⟨y, -, hfx, -⟩ := h x hx
  obtain ⟨y', -, hfx', -⟩ := h x' hx'
  refine ⟨y, y', hfx, hfx', ?_⟩
  rintro rfl
  exact hne (h.inj hx hx' (hfx.trans hfx'.symm))

/-- Settles O19: the flipped block is another block, so either direction, being undone by the other, answers another block. -/
theorem flippedBitChangesTheBlock : Obligations.FlippedBitChangesTheBlock := by
  intro c b k1 k2 i x hb h1 h2 hi
  have hflip : (b.set i (!x)).length = 8 := by rw [List.length_set, hb]
  obtain ⟨t, u, ht, hu, htu⟩ := (encryptBlock_undoneBy c h1 h2).answers_ne hb hflip (ne_set_not hi)
  obtain ⟨v, w, hv, hw, hvw⟩ := (decryptBlock_undoneBy c h1 h2).answers_ne hb hflip (ne_set_not hi)
  exact ⟨t, u, v, w, ht, hu, htu, hv, hw, hvw⟩

/-- A message is coded through any function that gives what each byte is coded to (R182). -/
theorem codeBytes_eq_map {f : Bits → Except Stop Bits} {e : Byte → Byte} (h : ∀ b, codeByte f b = .ok (e b)) (bytes : List Byte) :
    codeBytes f bytes = .ok (bytes.map e) := by
  induction bytes with
  | nil => rfl
  | cons b bs ih => exact codeBytes_cons_eq_ok_iff.mpr ⟨_, _, h b, ih, rfl⟩

/-- A message encrypts through any function that gives what each byte encrypts to (R182). -/
theorem encryptBytes_eq_map {c : Config} {key : Bits} (hkey : key.length = 10) {e : Byte → Byte}
    (h : ∀ b, encryptByte c b key = .ok (e b)) (bytes : List Byte) : encryptBytes c bytes key = .ok (bytes.map e) := by
  obtain ⟨k1, k2, hk1, hk2, -, -⟩ := subkeys_ok hkey
  simp only [encryptByte, hk1, hk2, ok_bind] at h
  rw [encryptBytes_eq_codeBytes hk1 hk2, codeBytes_eq_map h]

/-- A message decrypts through any function that gives what each byte decrypts to (R182). -/
theorem decryptBytes_eq_map {c : Config} {key : Bits} (hkey : key.length = 10) {d : Byte → Byte}
    (h : ∀ b, decryptByte c b key = .ok (d b)) (bytes : List Byte) : decryptBytes c bytes key = .ok (bytes.map d) := by
  obtain ⟨k1, k2, hk1, hk2, -, -⟩ := subkeys_ok hkey
  simp only [decryptByte, hk1, hk2, ok_bind] at h
  rw [decryptBytes_eq_codeBytes hk1 hk2, codeBytes_eq_map h]

/-- Settles O21: every byte encrypts and decrypts under the key, which chooses `e` and `d`; they are inverse by
`encryptByte_eq_ok_iff_decryptByte`. -/
theorem oneCodebookPerKey : Obligations.OneCodebookPerKey := by
  intro c key hkey
  choose e he using fun b => encryptByte_ok c b hkey
  choose d hd using fun b => decryptByte_ok c b hkey
  refine ⟨e, d, fun b => ⟨?_, ?_⟩, fun bytes => ⟨encryptBytes_eq_map hkey he bytes, decryptBytes_eq_map hkey hd bytes⟩,
    fun b => ⟨he b, hd b⟩⟩
  · have hback : decryptByte c (e b) key = .ok b := (encryptByte_eq_ok_iff_decryptByte hkey).mp (he b)
    exact Except.ok.inj ((hd (e b)).symm.trans hback)
  · have hback : encryptByte c (d b) key = .ok b := (encryptByte_eq_ok_iff_decryptByte hkey).mpr (hd b)
    exact Except.ok.inj ((he (d b)).symm.trans hback)

/-- Settles O22: a value of the default boxes each. -/
theorem defaultEngineMatchesPublishedExample : Obligations.DefaultEngineMatchesPublishedExample := by
  unfold Obligations.DefaultEngineMatchesPublishedExample
  decide

end Sys2Proof.Machine

/-! PROOFS. What one frame can be answered with, case by case, and what follows of it: one response per frame (R62, R66), the order of the
checks (R230), and the effects of an error (R231). -/

namespace Sys2Proof.Machine

/-- ENCB is the data command of `encryptByte` (R191). -/
theorem exec_encb (d : Byte) (s : State) :
    exec (.encb d) s = dataCommand s fun key => encryptByte engine d key >>= fun r => .ok [r] := rfl

/-- DECB is the data command of `decryptByte` (R192). -/
theorem exec_decb (d : Byte) (s : State) :
    exec (.decb d) s = dataCommand s fun key => decryptByte engine d key >>= fun r => .ok [r] := rfl

/-- ENCB, DECB, ENCM and DECM are one data command each, of a function that answers on every key (R191 to R194, R228). -/
theorem exec_data_eq_dataCommand {i : Instr} (hi : ∀ p, i ≠ .loadkey p) :
    ∃ f : Bits → Except Stop (List Byte),
      (∀ key : Bits, key.length = 10 → ∃ rs, f key = .ok rs ∧ rs.length ≤ i.payload.length) ∧
      ∀ s, exec i s = dataCommand s f := by
  cases i with
  | loadkey p => exact absurd rfl (hi p)
  | encb d =>
    refine ⟨_, fun key hkey => ?_, exec_encb d⟩
    obtain ⟨r, hr⟩ := encryptByte_ok engine d hkey
    exact ⟨[r], bind_eq_ok_iff.mpr ⟨r, hr, rfl⟩, le_rfl⟩
  | decb d =>
    refine ⟨_, fun key hkey => ?_, exec_decb d⟩
    obtain ⟨r, hr⟩ := decryptByte_ok engine d hkey
    exact ⟨[r], bind_eq_ok_iff.mpr ⟨r, hr, rfl⟩, le_rfl⟩
  | encm p => exact ⟨_, fun key hkey => (encryptBytes_ok engine p hkey).imp fun _ h => ⟨h.1, h.2.le⟩, fun _ => rfl⟩
  | decm p => exact ⟨_, fun key hkey => (decryptBytes_ok engine p hkey).imp fun _ h => ⟨h.1, h.2.le⟩, fun _ => rfl⟩

/-- Settles O28: a data command's response depends on KEY and KEYV alone (`dataCommand_answer`). -/
theorem dataCommandsOnlyRespond : Obligations.DataCommandsOnlyRespond := by
  intro i key keyv hi
  obtain ⟨f, hf, hexec⟩ := exec_data_eq_dataCommand hi
  obtain ⟨status, result, -, hanswer⟩ := dataCommand_answer hf key keyv
  exact ⟨responseFrame status result, fun s hk hv => (hexec s).trans (hanswer s hk hv)⟩

/-- Everything a frame can be answered with: LOADKEY installs or clears the key, a data command answers a result or `KeyNotSet`, and a
frame that is no command answers `IllegalCommand` (R190 to R195). -/
theorem transact_cases (f : Frame) (s : State) :
    (decodeFrame f = .ok (.loadkey f.payload) ∧ validKeyString engine f.payload = true ∧
      transact f s = .next (respondOK (installKey s (keyOfString engine f.payload)) [])) ∨
    (decodeFrame f = .ok (.loadkey f.payload) ∧ validKeyString engine f.payload = false ∧
      transact f s = .next (raiseError (clearKey s) .invalidKeyFormat)) ∨
    (s.keyv = true ∧ ∃ rs : List Byte, rs.length ≤ f.payload.length ∧ transact f s = .next (respondOK s rs)) ∨
    (s.keyv = false ∧ transact f s = .next (raiseError s .keyNotSet)) ∨
    ((∃ why, decodeFrame f = .error why) ∧ transact f s = .next (raiseError s .illegalCommand)) := by
  cases hf : decodeFrame f with
  | error why => exact .inr (.inr (.inr (.inr ⟨⟨why, rfl⟩, transact_illegal s hf⟩)))
  | ok i =>
    have hpayload := decodeFrame_payload hf
    rw [transact_command s hf]
    by_cases hi : ∃ p, i = .loadkey p
    · obtain ⟨p, rfl⟩ := hi
      obtain rfl : p = f.payload := hpayload
      obtain ⟨hvalid, hexec⟩ | ⟨hinvalid, hexec⟩ := exec_loadkey_cases f.payload s
      · exact .inl ⟨rfl, hvalid, hexec⟩
      · exact .inr (.inl ⟨rfl, hinvalid, hexec⟩)
    · obtain ⟨g, hg, hexec⟩ := exec_data_eq_dataCommand (not_exists.mp hi)
      rw [hexec s]
      cases hk : s.keyv with
      | true =>
        obtain ⟨rs, hrs, hlen⟩ := hg _ (bitsOfKey_length s.key)
        exact .inr (.inr (.inl ⟨rfl, rs, hpayload ▸ hlen, dataCommand_installed hk hrs⟩))
      | false => exact .inr (.inr (.inr (.inl ⟨rfl, dataCommand_unset g hk⟩)))

/-- Every frame gets one response, of no more result bytes than its payload and of none where the status is not OK (R66). -/
theorem transact_responds (f : Frame) (s : State) :
    ∃ (t : State) (status : Byte) (result : List Byte), result.length ≤ f.payload.length ∧ (status ≠ codeOK → result = []) ∧
      transact f s = .next t ∧ t.tx = s.tx ++ responseFrame status result := by
  obtain ⟨-, -, h⟩ | ⟨-, -, h⟩ | ⟨-, rs, hlen, h⟩ | ⟨-, h⟩ | ⟨-, h⟩ := transact_cases f s
  · exact ⟨_, codeOK, [], Nat.zero_le _, fun _ => rfl, h, rfl⟩
  · exact ⟨_, _, [], Nat.zero_le _, fun _ => rfl, h, rfl⟩
  · exact ⟨_, codeOK, rs, hlen, fun hne => absurd rfl hne, h, rfl⟩
  · exact ⟨_, _, [], Nat.zero_le _, fun _ => rfl, h, rfl⟩
  · exact ⟨_, _, [], Nat.zero_le _, fun _ => rfl, h, rfl⟩

/-- A response at the head of a stream is cut off whole, and only it (R66). -/
theorem cutResponse_responseFrame (status : Byte) {result : List Byte} (h : result.length ≤ lenMax) (more : List Byte) :
    cutResponse (responseFrame status result ++ more) = some ((status, result), more) := by
  simp [cutResponse, responseFrame, Nat.mod_eq_of_lt (Nat.lt_succ_of_le h)]

/-- Settles O35: the response of `transact_responds` fits a response frame, which `cutResponse_responseFrame` cuts off again. -/
theorem everyFrameGetsOneResponse : Obligations.EveryFrameGetsOneResponse := by
  intro f s hfits
  obtain ⟨t, status, result, hlen, herr, hrun, htx⟩ := transact_responds f s
  have hresult : result.length ≤ lenMax := hlen.trans hfits
  exact ⟨t, status, _, result, hrun, htx, lengthByte_toNat hresult, herr, cutResponse_responseFrame status hresult⟩

/-- Settles O36, by induction on the frames: the first frame's response comes first, and the rest are answered from the state it leaves. -/
theorem runAnswersEveryFrameInOrder : Obligations.RunAnswersEveryFrameInOrder := by
  intro frames
  induction frames with
  | nil => exact fun s _ => ⟨s, [], rfl, rfl, by simp, by simp⟩
  | cons f fs ih =>
    intro s hfits
    obtain ⟨u, status, result, hlen, -, hu, hutx⟩ := transact_responds f s
    obtain ⟨t, responses, hrun, hcount, htx, heach⟩ := ih u fun g hg => hfits g (List.mem_cons_of_mem f hg)
    refine ⟨t, (status, result) :: responses, (runFrames_cons fs hu).trans hrun, by simp [hcount], by simp [htx, hutx],
      fun j g hg => ?_⟩
    cases j with
    | zero =>
      obtain rfl : f = g := by simpa using hg
      exact ⟨s, u, (status, result), rfl, hlen.trans (hfits f List.mem_cons_self), rfl, hu, hutx, runFrames_cons [] hu⟩
    | succ j =>
      obtain ⟨before, after, r, hr, hrlen, hbefore, hg, hafter, hnext⟩ := heach j g hg
      exact ⟨before, after, r, hr, hrlen, (runFrames_cons _ hu).trans hbefore, hg, hafter, (runFrames_cons _ hu).trans hnext⟩

/-- The code of an error kind is read back as that kind (R221). -/
theorem errorOfCode_code (e : ErrorKind) : errorOfCode e.code = some e := by
  cases e <;> rfl

/-- No two error kinds share a code (R221). -/
theorem code_inj {a b : ErrorKind} (h : a.code = b.code) : a = b :=
  Option.some.inj ((errorOfCode_code a).symm.trans (h ▸ errorOfCode_code b))

/-- Settles O39: the codes are the table's by definition, and `code_inj` tells them apart. -/
theorem statusCodesAreTheTable : Obligations.StatusCodesAreTheTable :=
  ⟨rfl, rfl, rfl, rfl, rfl, rfl, rfl, fun _ _ => code_inj⟩

/-- An error response names its kind. -/
theorem errFrame_inj {a b : ErrorKind} (h : errFrame a = errFrame b) : a = b :=
  code_inj (List.cons.inj h).1

/-- No error response is the response of a success. -/
theorem okFrame_ne_errFrame (result : List Byte) (e : ErrorKind) : okFrame result ≠ errFrame e := by
  intro h
  have hcode : codeOK = e.code := (List.cons.inj h).1
  cases e <;> simp [codeOK, ErrorKind.code] at hcode

/-- Settles O41: the frame check and the key check answer as `transact_wrongLength` and `exec_data_unset` say, and LOADKEY as
`exec_loadkey_cases` says. -/
theorem checksComeInOrder : Obligations.ChecksComeInOrder := by
  refine ⟨fun p s hlen _ => ⟨transact_wrongLength (.inl rfl) hlen s, transact_wrongLength (.inr rfl) hlen s⟩,
    fun i s hi hk => exec_data_unset hi hk, fun p s => ?loadkey⟩
  case loadkey =>
    have hcommand := transact_command s (decodeFrame_op_payload (.loadkey p))
    obtain ⟨hvalid, hexec⟩ | ⟨-, hexec⟩ := exec_loadkey_cases p s
    · refine ⟨_, 0x00, hcommand.trans hexec, rfl, .inl rfl, fun hbad => ?_⟩
      obtain ⟨hlen, hchars⟩ := validKeyString_engine_iff.mp hvalid
      obtain hlen' | ⟨b, hb, h0, h1⟩ := hbad
      · exact absurd hlen hlen'
      · exact ((hchars b hb).elim h0 h1).elim
    · exact ⟨_, 0x01, hcommand.trans hexec, rfl, .inr rfl, fun _ => rfl⟩

/-- A frame whose response is an error frame raised that error: in the state with the key cleared where it is `InvalidKeyFormat`, and else in
the state as it was (R231). -/
theorem transact_errFrame {f : Frame} {s t : State} {e : ErrorKind} (h : transact f s = .next t) (htx : t.tx = s.tx ++ errFrame e) :
    (e = .invalidKeyFormat ∧ t = raiseError (clearKey s) e) ∨ (e ≠ .invalidKeyFormat ∧ t = raiseError s e) := by
  obtain ⟨-, -, h'⟩ | ⟨-, -, h'⟩ | ⟨-, rs, -, h'⟩ | ⟨-, h'⟩ | ⟨-, h'⟩ := transact_cases f s <;>
    obtain rfl := Host.Outcome.next.inj (h'.symm.trans h) <;>
    have hframe := List.append_cancel_left htx
  · exact absurd hframe (okFrame_ne_errFrame [] e)
  · exact .inl ⟨(errFrame_inj hframe).symm, by rw [errFrame_inj hframe]⟩
  · exact absurd hframe (okFrame_ne_errFrame rs e)
  · obtain rfl := errFrame_inj hframe
    exact .inr ⟨by decide, rfl⟩
  · obtain rfl := errFrame_inj hframe
    exact .inr ⟨by decide, rfl⟩

/-- Settles O42: raising an error writes the response alone, and clearing the key writes KEY, KEYV and the count of free values. -/
theorem errorsHaveNoOtherEffect : Obligations.ErrorsHaveNoOtherEffect := by
  intro f s t e h htx
  obtain ⟨rfl, rfl⟩ | ⟨hne, rfl⟩ := transact_errFrame h htx
  · exact ⟨fun hne => absurd rfl hne, fun _ => ⟨rfl, rfl⟩⟩
  · exact ⟨fun _ => rfl, fun heq => absurd heq hne⟩

/-- With no key installed, a frame that is no LOADKEY of a valid key string installs none and answers an error, which is `KeyNotSet` for
a data command (R263). -/
theorem transact_unset {f : Frame} {s : State} (hk : s.keyv = false)
    (hload : f.op = 0x01 → validKeyString engine f.payload = false) :
    ∃ (t : State) (e : ErrorKind), transact f s = .next t ∧ t.keyv = false ∧ t.tx = s.tx ++ errFrame e ∧
      ∀ i, decodeFrame f = .ok i → (∀ p, i ≠ .loadkey p) → e = .keyNotSet := by
  obtain ⟨hf, hvalid, -⟩ | ⟨hf, -, h⟩ | ⟨hk', -⟩ | ⟨-, h⟩ | ⟨⟨why, hf⟩, h⟩ := transact_cases f s
  · have hop : f.op = 0x01 := (decodeFrame_op hf).symm
    simp [hload hop] at hvalid
  · exact ⟨_, _, h, rfl, rfl, fun i hi hne => absurd (Except.ok.inj (hi.symm.trans hf)) (hne _)⟩
  · simp [hk] at hk'
  · exact ⟨_, _, h, hk, rfl, fun _ _ _ => rfl⟩
  · exact ⟨_, _, h, hk, rfl, fun i hi => by simp [hf] at hi⟩

/-- Settles O45, by induction on the frames: `transact_unset` answers the first and leaves no key installed for the rest. -/
theorem noDataBeforeAValidLoadkey : Obligations.NoDataBeforeAValidLoadkey := by
  intro frames
  induction frames with
  | nil => exact fun s hk _ => ⟨s, [], rfl, hk, rfl, by simp, by simp⟩
  | cons f fs ih =>
    intro s hk hload
    obtain ⟨u, e, hu, huk, hutx, he⟩ := transact_unset hk (hload f List.mem_cons_self)
    obtain ⟨t, errors, hrun, htk, hcount, htx, heach⟩ := ih u huk fun g hg => hload g (List.mem_cons_of_mem f hg)
    refine ⟨t, e :: errors, (runFrames_cons fs hu).trans hrun, htk, by simp [hcount], by simp [htx, hutx],
      fun j g i hg hi hne => ?_⟩
    cases j with
    | zero =>
      obtain rfl : f = g := by simpa using hg
      exact congrArg some (he i hi hne)
    | succ j => exact heach j g i hg hi hne

end Sys2Proof.Machine

/-! PROOFS. The rest of 30_encoding.md: the opcode table against the decoder (R67), the worked frames and their text (R73), and a long
message in pieces (R74). -/

namespace Sys2Proof

/-- A row whose mask is byte 0 alone matches by the opcode. -/
theorem rowMatches_op (name : String) (code op len : Byte) :
    rowMatches ⟨name, (0xFF : Byte) ++ (0x00 : Byte), code ++ (0x00 : Byte)⟩ (headerWord op len) = decide (op = code) := by
  rw [rowMatches_bytes, show (0xFF : Byte) = BitVec.allOnes 8 from rfl, BitVec.and_allOnes]
  simp

/-- A row whose mask is the whole header matches by the opcode and the length. -/
theorem rowMatches_op_len (name : String) (code length op len : Byte) :
    rowMatches ⟨name, (0xFF : Byte) ++ (0xFF : Byte), code ++ length⟩ (headerWord op len) = decide (op = code ∧ len = length) := by
  rw [rowMatches_bytes, show (0xFF : Byte) = BitVec.allOnes 8 from rfl, BitVec.and_allOnes, BitVec.and_allOnes]

/-- The table with each word written as byte 0 and byte 1 (log entry 11). -/
theorem opcodeRows_eq_bytes : opcodeRows =
    [⟨"LOADKEY", (0xFF : Byte) ++ (0x00 : Byte), opLoadkey ++ (0x00 : Byte)⟩,
     ⟨"ENCB", (0xFF : Byte) ++ (0xFF : Byte), opEncb ++ (0x01 : Byte)⟩,
     ⟨"DECB", (0xFF : Byte) ++ (0xFF : Byte), opDecb ++ (0x01 : Byte)⟩,
     ⟨"ENCM", (0xFF : Byte) ++ (0x00 : Byte), opEncm ++ (0x00 : Byte)⟩,
     ⟨"DECM", (0xFF : Byte) ++ (0x00 : Byte), opDecm ++ (0x00 : Byte)⟩] := by
  decide

/-- A row matches a header only where the opcode is assigned, and where `LEN = 1` if that is ENCB or DECB (R67, R71). -/
theorem legal_of_rowMatches {r : OpcodeRow} {op len : Byte} (hr : r ∈ opcodeRows) (h : rowMatches r (headerWord op len) = true) :
    op = 0x01 ∨ op = 0x04 ∨ op = 0x05 ∨ ((op = 0x02 ∨ op = 0x03) ∧ len = 0x01) := by
  rw [opcodeRows_eq_bytes] at hr
  simp only [List.mem_cons, List.not_mem_nil, or_false] at hr
  obtain rfl | rfl | rfl | rfl | rfl := hr <;>
    simp only [rowMatches_op, rowMatches_op_len, decide_eq_true_eq] at h
  · exact .inl h
  · exact .inr (.inr (.inr ⟨.inl h.1, h.2⟩))
  · exact .inr (.inr (.inr ⟨.inr h.1, h.2⟩))
  · exact .inr (.inl h)
  · exact .inr (.inr (.inl h))

/-- The one row that matches the header of a command's frame is the command's (R67). -/
theorem mnemonics_matching (i : Instr) :
    (opcodeRows.filter fun r => rowMatches r (headerWord i.op (BitVec.ofNat 8 i.payload.length))).map OpcodeRow.mnemonic =
      [mnemonicOf i] := by
  rw [opcodeRows_eq_bytes]
  simp only [List.filter_cons, rowMatches_op, rowMatches_op_len]
  cases i <;> rfl

/-- Settles O32: a frame that decodes is its command's (`decodeFrame_eq_ok_iff`), and a row that matched one that does not would make it
legal. -/
theorem opcodeTableAgreesWithDecoder : Obligations.OpcodeTableAgreesWithDecoder := by
  rintro ⟨op, p⟩ hfits
  constructor
  · intro i hi
    rw [decodeFrame_eq_ok_iff.mp hi]
    exact mnemonics_matching i
  · intro why hwhy
    refine List.filter_eq_nil_iff.mpr fun r hr hmatch => ?_
    have hlen : BitVec.ofNat 8 p.length = 0x01 → p.length = 1 := fun h => by
      rw [← lengthByte_toNat hfits, h]; rfl
    have hlegal := (legal_of_rowMatches hr hmatch).imp_right (Or.imp_right (Or.imp_right (And.imp_right hlen)))
    obtain ⟨i, hi⟩ := decodeFrame_legal hlegal
    simp [hi] at hwhy

end Sys2Proof

namespace Sys2Proof.Machine

/-- Settles O34: each frame is decoded. -/
theorem sampleFramesDecode : Obligations.SampleFramesDecode := by
  unfold Obligations.SampleFramesDecode
  decide

/-- Settles O37: each line is assembled, and each response written. -/
theorem assemblerGivesTheWorkedFrames : Obligations.AssemblerGivesTheWorkedFrames := by
  unfold Obligations.AssemblerGivesTheWorkedFrames
  decide

/-- Frame `j` of a long message is the opcode with piece `j`. -/
theorem getElem?_longMessage {op : Byte} {bytes : List Byte} {j : Nat} {f : Frame} (h : (longMessage op bytes)[j]? = some f) :
    f.op = op ∧ (splitMessage bytes.length bytes)[j]? = some f.payload := by
  rw [longMessage, List.getElem?_map, Option.map_eq_some_iff] at h
  obtain ⟨p, hp, rfl⟩ := h
  exact ⟨rfl, hp⟩

/-- The frames of a long message carry it whole, in frames that are full but for the last (R74). -/
theorem longMessage_frames (op : Byte) (bytes : List Byte) :
    (longMessage op bytes).flatMap Frame.payload = bytes ∧ longMessage op bytes ≠ [] ∧
      ∀ (j : Nat) (f : Frame), (longMessage op bytes)[j]? = some f → f.op = op ∧ f.payload.length ≤ lenMax ∧
        (j + 1 < (longMessage op bytes).length → f.payload.length = lenMax) ∧ (bytes ≠ [] → f.payload ≠ []) := by
  refine ⟨?_, by simp [longMessage, splitMessage_ne_nil], fun j f hf => ?_⟩
  · rw [longMessage, List.flatMap_map, List.flatMap_id', splitMessage_flatten]
  · obtain ⟨hop, hpiece⟩ := getElem?_longMessage hf
    have hmem := List.mem_of_getElem? hpiece
    refine ⟨hop, splitMessage_fits _ _ (by simp only [lenMax]; omega) _ hmem, fun hj => ?_, fun hne => ?_⟩
    · exact splitMessage_full _ _ j _ hpiece (by simpa [longMessage] using hj)
    · exact splitMessage_pieces_ne_nil _ _ hne _ hmem

/-- Frames of one opcode that each answer OK with a result of their payload answer these results in order, and leave the key. -/
theorem runFrames_respondOK {op : Byte} {g : List Byte → List Byte} {s : State}
    (h : ∀ (p : List Byte) (t : State), t.key = s.key → t.keyv = s.keyv → transact ⟨op, p⟩ t = .next (respondOK t (g p)))
    (pieces : List (List Byte)) :
    runFrames (pieces.map fun p => ⟨op, p⟩) s = .next { s with tx := s.tx ++ (pieces.map g).flatMap okFrame } := by
  induction pieces generalizing s with
  | nil => simp [runFrames]
  | cons p ps ih =>
    have hrest := ih (s := respondOK s (g p)) h
    rw [List.map_cons, runFrames_cons _ (h p s rfl rfl), hrest]
    simp [respondOK, emit]

/-- Frames of one opcode that each answer OK with their payload mapped through `e` answer a long message mapped through `e`, in pieces. -/
theorem longMessage_results {op : Byte} {e : Byte → Byte} {s : State} {f : List Byte → Except Stop (List Byte)} (bytes : List Byte)
    (hf : ∀ p, f p = .ok (p.map e))
    (h : ∀ (p : List Byte) (t : State), t.key = s.key → t.keyv = s.keyv → transact ⟨op, p⟩ t = .next (respondOK t (p.map e))) :
    ∃ results : List (List Byte), results.length = (longMessage op bytes).length ∧
      (∀ (j : Nat) (fr : Frame), (longMessage op bytes)[j]? = some fr → ∃ r, results[j]? = some r ∧
        r.length = fr.payload.length ∧ f fr.payload = .ok r) ∧
      runFrames (longMessage op bytes) s = .next { s with tx := s.tx ++ results.flatMap okFrame } ∧
      f bytes = .ok results.flatten := by
  refine ⟨(splitMessage bytes.length bytes).map (List.map e), by simp [longMessage], fun j fr hfr => ?_,
    runFrames_respondOK h _, ?_⟩
  · obtain ⟨-, hpiece⟩ := getElem?_longMessage hfr
    exact ⟨fr.payload.map e, by rw [List.getElem?_map, hpiece]; rfl, List.length_map .., hf fr.payload⟩
  · rw [hf, ← List.map_flatten, splitMessage_flatten]

/-- Settles O38: under the installed key there is one codebook (O21), so the results of the pieces are the pieces mapped through it, and
together the whole message mapped through it. -/
theorem longMessageGivesTheWholeResult : Obligations.LongMessageGivesTheWholeResult := by
  intro bytes s hk
  obtain ⟨e, d, -, hmessages, -⟩ := oneCodebookPerKey engine (bitsOfKey s.key) (bitsOfKey_length s.key)
  refine ⟨fun op => longMessage_frames op bytes, longMessage_results bytes (fun p => (hmessages p).1) ?_,
    longMessage_results bytes (fun p => (hmessages p).2) ?_⟩
  · intro p t hkey hkeyv
    exact (transact_command t (decodeFrame_op_payload (.encm p))).trans
      (exec_encm_installed (hkeyv.trans hk) (hkey ▸ (hmessages p).1))
  · intro p t hkey hkeyv
    exact (transact_command t (decodeFrame_op_payload (.decm p))).trans
      (exec_decm_installed (hkeyv.trans hk) (hkey ▸ (hmessages p).2))

end Sys2Proof.Machine

/-! PROOFS. The step and the channels: when each channel moves (R61, R62), when the engine is stuck (R64, R269), what a step runs, what
`rst` does (R260, R262), and who writes the key (R24). -/

namespace Sys2Proof.Machine

/-- `cmd_ready` is asserted exactly when no response byte is pending and no frame is complete (R62, log entry 8). -/
theorem cmdReady_iff {s : State} : s.cmdReady = true ↔ s.tx = [] ∧ cutFrame s.rx = none := by
  simp [State.cmdReady, frameComplete]

/-- `rsp_valid` is asserted exactly when a response byte is pending (R62, log entry 8). -/
theorem rspValid_iff {s : State} : s.rspValid = true ↔ s.tx ≠ [] := by
  simp [State.rspValid]

/-- Settles O51: both signals by their definition, and a response byte is pending for one of them only. -/
theorem readyOnlyAfterTheResponse : Obligations.ReadyOnlyAfterTheResponse :=
  fun _ => ⟨cmdReady_iff, rspValid_iff, fun h => rspValid_iff.mp h.2 (cmdReady_iff.mp h.1).1⟩

/-- Settles O43: each field of a fresh state, and the two signals of it. -/
theorem resetInstallsNoKey : Obligations.ResetInstallsNoKey :=
  ⟨rfl, rfl, rfl, rfl, rfl, rfl, cmdReady_iff.mpr ⟨rfl, rfl⟩⟩

/-- While a response is leaving or no frame is complete, a step waits for the host (R62). -/
theorem step_of_wait {s : State} (hwait : s.tx ≠ [] ∨ cutFrame s.rx = none) : step s = waitForHost s := by
  obtain ⟨-, hstep⟩ | ⟨f, rest, htx, hcut, -⟩ := step_shape s
  · exact hstep
  · simp [htx, hcut] at hwait

/-- Waiting takes the host's next moment (R60). -/
theorem waitForHost_moment {s : State} {m : Moment} {rest : List Moment} (hhost : s.host = m :: rest) :
    waitForHost s = .next (interfaceMoment m { s with host := rest }) := by
  rw [waitForHost, hhost]

/-- Where the host's moments have ended, waiting is stuck, with a response byte offered or a command byte needed (R64). -/
theorem waitForHost_silent {s : State} (hhost : s.host = []) :
    waitForHost s = .fault (if s.rspValid then .stuckAwaitingHost else .stuckAwaitingCommand) := by
  rw [waitForHost, hhost]

/-- While a response is leaving or no frame is complete, a step is the host's next moment (R62). -/
theorem step_of_moment {s : State} {m : Moment} {rest : List Moment} (hwait : s.tx ≠ [] ∨ cutFrame s.rx = none)
    (hhost : s.host = m :: rest) : step s = .next (interfaceMoment m { s with host := rest }) :=
  (step_of_wait hwait).trans (waitForHost_moment hhost)

/-- While no response is pending, a step on a complete frame is its transaction (R62, R195). -/
theorem step_of_frame {s : State} {f : Frame} {rest : List Byte} (htx : s.tx = []) (hcut : cutFrame s.rx = some (f, rest)) :
    step s = transact f (dropFrame s rest) := by
  simp [step, htx, hcut]

/-- A moment with `rst` asserted (R260, log entry 10). -/
theorem interfaceMoment_rst {m : Moment} (hrst : m.rst = true) (s : State) : interfaceMoment m s = assertReset s := by
  simp [interfaceMoment, hrst]

/-- A moment at which a command byte crosses (R61). -/
theorem interfaceMoment_take {m : Moment} {s : State} {b : Byte} (hrst : m.rst = false) (hcmd : m.cmd = some b)
    (hready : s.cmdReady = true) : interfaceMoment m s = takeCommandByte s b := by
  obtain ⟨htx, -⟩ := cmdReady_iff.mp hready
  simp [interfaceMoment, hrst, State.rspValid, htx, commandChannel, hcmd, hready]

/-- A moment at which a response byte crosses (R61). -/
theorem interfaceMoment_send {m : Moment} {s : State} {b : Byte} {tail : List Byte} (hrst : m.rst = false) (htx : s.tx = b :: tail)
    (hready : m.rspReady = true) : interfaceMoment m s = { s with tx := tail, rspStream := s.rspStream ++ [b] } := by
  simp [interfaceMoment, hrst, State.rspValid, htx, responseChannel, hready, sendResponseByte]

/-- A moment at which neither channel has both valid and ready (R61). -/
theorem interfaceMoment_idle {m : Moment} {s : State} (hrst : m.rst = false) (hcmd : m.cmd = none ∨ s.cmdReady = false)
    (hrsp : m.rspReady = false ∨ s.rspValid = false) : interfaceMoment m s = s := by
  cases hvalid : s.rspValid with
  | true =>
    have hready : m.rspReady = false := hrsp.resolve_right (by simp [hvalid])
    simp [interfaceMoment, hrst, hvalid, responseChannel, hready]
  | false =>
    obtain hnone | hready := hcmd
    · simp [interfaceMoment, hrst, hvalid, commandChannel, hnone]
    · cases hoffer : m.cmd <;> simp [interfaceMoment, hrst, hvalid, commandChannel, hoffer, hready]

/-- Settles O44: the moment is the step, and `rst` makes it a reset. -/
theorem resetAtAnyMomentStartsAfresh : Obligations.ResetAtAnyMomentStartsAfresh := by
  intro s m rest hhost hrst hwait
  exact ⟨_, _, (step_of_moment hwait hhost).trans (congrArg _ (interfaceMoment_rst hrst _))⟩

/-- Settles O50: the moment is the step, and each clause is one thing a moment without `rst` can do. -/
theorem byteCrossesWhenValidAndReady : Obligations.ByteCrossesWhenValidAndReady := by
  intro s m rest hhost hrst hwait
  rw [step_of_moment hwait hhost]
  exact ⟨fun b hcmd hready => congrArg _ (interfaceMoment_take (s := { s with host := rest }) hrst hcmd hready),
    fun b tail htx hready => congrArg _ (interfaceMoment_send (s := { s with host := rest }) hrst htx hready),
    fun hcmd hrsp => congrArg _ (interfaceMoment_idle (s := { s with host := rest }) hrst hcmd hrsp)⟩

/-- Everything a step can end in: a next state, or stuck on a silent host, with a byte needed or a byte offered (R64, R269). -/
theorem step_outcome (s : State) :
    (∃ t, step s = .next t ∧ (s.host ≠ [] ∨ (s.tx = [] ∧ cutFrame s.rx ≠ none))) ∨
    (step s = .fault .stuckAwaitingCommand ∧ s.host = [] ∧ s.tx = [] ∧ cutFrame s.rx = none) ∨
    (step s = .fault .stuckAwaitingHost ∧ s.host = [] ∧ s.tx ≠ []) := by
  obtain ⟨hwait, hstep⟩ | ⟨f, rest, htx, hcut, hstep⟩ := step_shape s
  · rw [hstep]
    obtain ⟨m, rest, hhost, h⟩ | ⟨hhost, htx, h⟩ | ⟨hhost, htx, h⟩ := waitForHost_cases s
    · exact .inl ⟨_, h, .inl (by simp [hhost])⟩
    · exact .inr (.inl ⟨h, hhost, htx, hwait.resolve_left (not_not_intro htx)⟩)
    · exact .inr (.inr ⟨h, hhost, htx⟩)
  · obtain ⟨t, -, -, -, -, hrun, -⟩ := transact_responds f (dropFrame s rest)
    exact .inl ⟨t, hstep.trans hrun, .inr ⟨htx, by simp [hcut]⟩⟩

/-- Settles O52: the three outcomes of `step_outcome` exclude one another. -/
theorem stuckExactlyWhenTheHostIsSilent : Obligations.StuckExactlyWhenTheHostIsSilent := by
  intro s
  obtain ⟨t, h, hgo⟩ | ⟨h, hhost, htx, hcut⟩ | ⟨h, hhost, htx⟩ := step_outcome s <;> rw [SafeStep, h]
  · refine ⟨trivial, ⟨nofun, ?_⟩, ⟨nofun, ?_⟩⟩
    · rintro ⟨hhost, -, hcut⟩
      exact (hgo.elim (· hhost) (·.2 hcut)).elim
    · rintro ⟨hhost, htx⟩
      exact (hgo.elim (· hhost) (htx ·.1)).elim
  · exact ⟨hhost, by simp [hhost, htx, hcut], by simp [htx]⟩
  · exact ⟨hhost, by simp [htx], by simp [hhost, htx]⟩

/-- Settles O48: the frame at the head of the received bytes is the one `decode` reads (`decode_eq_ok_iff`, `decode_eq_illegal_iff`). -/
theorem stepRunsTheDecodedCommand : Obligations.StepRunsTheDecodedCommand := by
  intro s htx
  constructor
  · intro i rest h
    obtain ⟨f, hcut, hf⟩ := decode_eq_ok_iff.mp h
    exact (step_of_frame htx hcut).trans (transact_command _ hf)
  · intro why h
    obtain ⟨f, rest, hcut, hf⟩ := decode_eq_illegal_iff.mp h
    refine ⟨f, rest, hcut, hf, ?_⟩
    rw [step_of_frame htx hcut, transact_illegal _ hf]
    simp [raiseError, emit, dropFrame, htx, errFrame, responseFrame, ErrorKind.code]

/-- A table word stands for one whole frame, with no byte after it (log entry 11). -/
theorem tableFrameBytes_eq_encodeFrame (nbits w : Nat) :
    ∃ f : Frame, f.payload.length ≤ lenMax ∧ tableFrameBytes nbits w = encodeFrame f := by
  refine ⟨⟨byteAt (w % 2 ^ nbits) 8,
    (List.range (byteAt (w % 2 ^ nbits) 0).toNat).map fun k => byteAt (w % 2 ^ nbits) (16 + 8 * k)⟩, ?_, ?_⟩
  · simpa using Nat.le_of_lt_succ (byteAt (w % 2 ^ nbits) 0).isLt
  · simp [tableFrameBytes, encodeFrame]

/-- Settles O49: the placed bytes are one frame, which leaves nothing received. -/
theorem placedWordRunsNext : Obligations.PlacedWordRunsNext := by
  intro s nbits w i h
  obtain ⟨f, hfits, hbytes⟩ := tableFrameBytes_eq_encodeFrame nbits w
  have hcut : cutFrame (tableFrameBytes nbits w) = some (f, []) := by
    simpa [hbytes] using cutFrame_encodeFrame hfits []
  have hf : decodeFrame f = .ok i := by
    simp only [decodeTableWord, decode, hcut] at h
    cases hf : decodeFrame f with
    | ok j => simpa [hf] using h
    | error why => simp [hf] at h
  exact (step_of_frame rfl hcut).trans (transact_command _ hf)

/-- A moment without `rst` writes neither the key nor its count of free values (R24). -/
theorem interfaceMoment_keeps_key {m : Moment} (hrst : m.rst = false) (s : State) :
    (interfaceMoment m s).key = s.key ∧ (interfaceMoment m s).keyv = s.keyv ∧ (interfaceMoment m s).draws = s.draws := by
  obtain ⟨hrst', -⟩ | ⟨-, b, tail, -, -, e⟩ | ⟨-, b, -, -, -, e⟩ | ⟨-, e⟩ := interfaceMoment_cases m s
  · simp [hrst] at hrst'
  all_goals rw [e]; exact ⟨rfl, rfl, rfl⟩

/-- A frame that is no LOADKEY writes neither the key nor its count of free values (R24, R196). -/
theorem transact_keeps_key {f : Frame} {s t : State} (h : transact f s = .next t) (hf : ∀ p, decodeFrame f ≠ .ok (.loadkey p)) :
    t.key = s.key ∧ t.keyv = s.keyv ∧ t.draws = s.draws := by
  obtain ⟨hload, -⟩ | ⟨hload, -⟩ | ⟨-, rs, -, h'⟩ | ⟨-, h'⟩ | ⟨-, h'⟩ := transact_cases f s
  · exact absurd hload (hf _)
  · exact absurd hload (hf _)
  all_goals
    obtain rfl := Host.Outcome.next.inj (h'.symm.trans h)
    exact ⟨rfl, rfl, rfl⟩

/-- Settles O47: a moment that changed the key had `rst` asserted, and an executed frame that changed it was a LOADKEY. -/
theorem onlyLoadkeyAndResetWriteTheKey : Obligations.OnlyLoadkeyAndResetWriteTheKey := by
  intro s t hstep hchanged
  have hkept : ¬ (t.key = s.key ∧ t.keyv = s.keyv ∧ t.draws = s.draws) := by
    simpa only [not_and_or] using hchanged
  obtain ⟨m, rest, hhost, hwait, rfl⟩ | ⟨f, rest, htx, hcut, hrun⟩ := step_next hstep
  · have hrst : m.rst = true := by
      by_contra hrst
      exact hkept (interfaceMoment_keeps_key (Bool.eq_false_of_not_eq_true hrst) { s with host := rest })
    exact .inr ⟨hwait, m, rest, hhost, hrst, by rw [interfaceMoment_rst hrst, assertReset_host]⟩
  · have hload : ∃ p, decodeFrame f = .ok (.loadkey p) := by
      by_contra hload
      exact hkept (transact_keeps_key (s := dropFrame s rest) hrun (not_exists.mp hload))
    obtain ⟨p, hp⟩ := hload
    exact .inl ⟨p, rest, htx, decode_eq_ok_iff.mpr ⟨f, hcut, hp⟩⟩

end Sys2Proof.Machine

/-! PROOFS. What the host cannot see of the key (R24), and runs of steps: a frame received byte by byte (R62, R269) and a response that
leaves byte by byte (R61). -/

namespace Sys2Proof.Machine

/-- A state with other bits in KEY and another count of free values. -/
def withKeyBits (s : State) (k : Key) (n : Nat) : State := { s with key := k, draws := n }

/-- The indistinguishable states: KEY and the count of free values replaced, KEY only where no key is installed. -/
theorem indistinguishable_iff {s t : State} :
    Indistinguishable s t ↔ ∃ (k : Key) (n : Nat), t = withKeyBits s k n ∧ (s.keyv = true → s.key = k) := by
  constructor
  · rintro ⟨hkeyv, hkey, hrx, htx, hcmd, hrsp, hhost⟩
    exact ⟨t.key, t.draws, by rw [withKeyBits, hkeyv, hrx, htx, hcmd, hrsp, hhost], hkey⟩
  · rintro ⟨k, n, rfl, hkey⟩
    exact ⟨rfl, hkey, rfl, rfl, rfl, rfl, rfl⟩

/-- The same response behind what is pending keeps two states indistinguishable. -/
theorem indistinguishable_emit {s t : State} (h : Indistinguishable s t) (response : List Byte) :
    Indistinguishable (emit s response) (emit t response) := by
  obtain ⟨k, n, rfl, hkey⟩ := indistinguishable_iff.mp h
  exact indistinguishable_iff.mpr ⟨k, n, rfl, hkey⟩

/-- Installing one key in two indistinguishable states keeps them so. -/
theorem indistinguishable_installKey {s t : State} (h : Indistinguishable s t) (key : Key) :
    Indistinguishable (installKey s key) (installKey t key) := by
  obtain ⟨k, n, rfl, -⟩ := indistinguishable_iff.mp h
  exact indistinguishable_iff.mpr ⟨key, n, rfl, fun _ => rfl⟩

/-- Clearing the key of two indistinguishable states keeps them so, whatever bits KEY then holds. -/
theorem indistinguishable_clearKey {s t : State} (h : Indistinguishable s t) : Indistinguishable (clearKey s) (clearKey t) := by
  obtain ⟨k, n, rfl, -⟩ := indistinguishable_iff.mp h
  exact indistinguishable_iff.mpr ⟨_, _, rfl, nofun⟩

/-- A moment without `rst` does not read KEY, nor the count of free values (R24). -/
theorem interfaceMoment_withKeyBits {m : Moment} (hrst : m.rst = false) (s : State) (k : Key) (n : Nat) :
    interfaceMoment m (withKeyBits s k n) = withKeyBits (interfaceMoment m s) k n := by
  have hidle (hcmd : m.cmd = none ∨ s.cmdReady = false) (hrsp : m.rspReady = false ∨ s.rspValid = false) :
      interfaceMoment m (withKeyBits s k n) = withKeyBits (interfaceMoment m s) k n := by
    rw [interfaceMoment_idle hrst hcmd hrsp]
    exact interfaceMoment_idle hrst hcmd hrsp
  cases htx : s.tx with
  | cons b tail =>
    have hbusy : s.cmdReady = false := by simp [State.cmdReady, htx]
    cases hready : m.rspReady with
    | true =>
      rw [interfaceMoment_send hrst htx hready]
      exact interfaceMoment_send (s := withKeyBits s k n) hrst htx hready
    | false => exact hidle (.inr hbusy) (.inl hready)
  | nil =>
    have hsilent : s.rspValid = false := by simp [State.rspValid, htx]
    cases hcmd : m.cmd with
    | none => exact hidle (.inl hcmd) (.inr hsilent)
    | some b =>
      cases hready : s.cmdReady with
      | true =>
        rw [interfaceMoment_take hrst hcmd hready]
        exact interfaceMoment_take (s := withKeyBits s k n) hrst hcmd hready
      | false => exact hidle (.inr hready) (.inr hsilent)

/-- A moment keeps two states indistinguishable: `rst` leaves no key installed, and any other moment leaves the key alone. -/
theorem indistinguishable_interfaceMoment {s t : State} (h : Indistinguishable s t) (m : Moment) :
    Indistinguishable (interfaceMoment m s) (interfaceMoment m t) := by
  obtain ⟨k, n, rfl, hkey⟩ := indistinguishable_iff.mp h
  cases hrst : m.rst with
  | true =>
    rw [interfaceMoment_rst hrst, interfaceMoment_rst hrst]
    exact indistinguishable_iff.mpr ⟨_, _, rfl, nofun⟩
  | false =>
    obtain ⟨hkey', hkeyv', -⟩ := interfaceMoment_keeps_key hrst s
    exact indistinguishable_iff.mpr ⟨k, n, interfaceMoment_withKeyBits hrst s k n, by rwa [hkey', hkeyv']⟩

/-- A command answers two indistinguishable states alike: LOADKEY does not read KEY, and a data command reads it only where it is
installed (R24). -/
theorem sameToHost_exec {s t : State} (h : Indistinguishable s t) (i : Instr) : SameToHost (exec i s) (exec i t) := by
  by_cases hi : ∃ p, i = .loadkey p
  · obtain ⟨p, rfl⟩ := hi
    rw [exec_loadkey, exec_loadkey]
    cases hvalid : validKeyString engine p with
    | true =>
      rw [loadkeyWith_valid s hvalid, loadkeyWith_valid t hvalid]
      exact indistinguishable_emit (indistinguishable_installKey h _) _
    | false =>
      rw [loadkeyWith_invalid s hvalid, loadkeyWith_invalid t hvalid]
      exact indistinguishable_emit (indistinguishable_clearKey h) _
  · have hdata := not_exists.mp hi
    have ⟨hkeyv, hkey, _⟩ := h
    cases hk : s.keyv with
    | true =>
      obtain ⟨r, hr⟩ := dataCommandsOnlyRespond i s.key true hdata
      rw [hr s rfl hk, hr t (hkey hk).symm (hkeyv.symm.trans hk)]
      exact indistinguishable_emit h r
    | false =>
      rw [exec_data_unset hdata hk, exec_data_unset hdata (hkeyv.symm.trans hk)]
      exact indistinguishable_emit h _

/-- A frame is answered alike in two indistinguishable states. -/
theorem sameToHost_transact {s t : State} (h : Indistinguishable s t) (f : Frame) :
    SameToHost (transact f s) (transact f t) := by
  cases hf : decodeFrame f with
  | ok i =>
    rw [transact_command s hf, transact_command t hf]
    exact sameToHost_exec h i
  | error why =>
    rw [transact_illegal s hf, transact_illegal t hf]
    exact indistinguishable_emit h _

/-- Waiting on the host goes alike from two indistinguishable states: the same moment passes, or the same stop is reached. -/
theorem sameToHost_waitForHost {s t : State} (h : Indistinguishable s t) : SameToHost (waitForHost s) (waitForHost t) := by
  obtain ⟨k, n, rfl, hkey⟩ := indistinguishable_iff.mp h
  cases hhost : s.host with
  | cons m rest =>
    have hrest : Indistinguishable { s with host := rest } (withKeyBits { s with host := rest } k n) :=
      indistinguishable_iff.mpr ⟨k, n, rfl, hkey⟩
    rw [waitForHost_moment hhost, waitForHost_moment (s := withKeyBits s k n) hhost]
    exact indistinguishable_interfaceMoment hrest m
  | nil =>
    rw [waitForHost_silent hhost, waitForHost_silent (s := withKeyBits s k n) hhost]
    exact rfl

/-- Settles O46: two indistinguishable states have the same buffers, so both wait on the host or both execute the same frame. -/
theorem unsetKeyBitsAreInvisible : Obligations.UnsetKeyBitsAreInvisible := by
  intro s t h
  obtain ⟨k, n, rfl, hkey⟩ := indistinguishable_iff.mp h
  obtain ⟨hwait, hstep⟩ | ⟨f, rest, htx, hcut, hstep⟩ := step_shape s
  · rw [hstep, step_of_wait (s := withKeyBits s k n) hwait]
    exact sameToHost_waitForHost h
  · have hdropped : Indistinguishable (dropFrame s rest) (dropFrame (withKeyBits s k n) rest) :=
      indistinguishable_iff.mpr ⟨k, n, rfl, hkey⟩
    rw [hstep, step_of_frame (s := withKeyBits s k n) htx hcut]
    exact sameToHost_transact hdropped f

/-- A run of steps goes on from where its first step leads. -/
theorem run_succ (M : Host.Core) {s t : M.State} (h : M.step s = .next t) (k : Nat) : M.run (k + 1) s = M.run k t := by
  rw [Host.Core.run, h]

/-- A frame is complete only with its last byte (R65). -/
theorem cutFrame_take_encodeFrame {f : Frame} (hfits : f.payload.length ≤ lenMax) {n : Nat} (hn : n < (encodeFrame f).length) :
    cutFrame ((encodeFrame f).take n) = none := by
  by_contra hcut
  obtain ⟨⟨g, rest⟩, hcut⟩ := Option.ne_none_iff_exists'.mp hcut
  obtain ⟨hprefix, hfits'⟩ := cutFrame_some hcut
  have hstream : encodeFrame f ++ [] = encodeFrame g ++ (rest ++ (encodeFrame f).drop n) := by
    rw [← List.append_assoc, ← hprefix, List.take_append_drop, List.append_nil]
  have hrest : rest ++ (encodeFrame f).drop n = [] := by
    have hsame := cutFrame_encodeFrame hfits []
    rw [hstream, cutFrame_encodeFrame hfits'] at hsame
    simpa using congrArg (Option.map Prod.snd) hsame
  have hdrop : (encodeFrame f).drop n = [] := (List.append_eq_nil_iff.mp hrest).2
  exact absurd (List.drop_eq_nil_iff.mp hdrop) (by omega)

/-- Bytes that the host offers moment by moment are received one by one, as long as none but the last completes a frame (R61). -/
theorem run_receive {s : State} {bytes : List Byte} {ready : Bool} {rest : List Moment} (k : Nat) (htx : s.tx = [])
    (hhost : s.host = bytes.map (fun b => (⟨false, some b, ready⟩ : Moment)) ++ rest)
    (hpartial : ∀ n, n < bytes.length → cutFrame (s.rx ++ bytes.take n) = none) :
    Host.Core.run core (bytes.length + k) s =
      Host.Core.run core k { s with rx := s.rx ++ bytes, cmdStream := s.cmdStream ++ bytes, host := rest } := by
  induction bytes generalizing s with
  | nil =>
    obtain rfl : s.host = rest := hhost
    simp
  | cons b bytes ih =>
    have hcut : cutFrame s.rx = none := by simpa using hpartial 0 (Nat.succ_pos _)
    have hready : ({ s with host := bytes.map (fun b => (⟨false, some b, ready⟩ : Moment)) ++ rest } : State).cmdReady = true :=
      cmdReady_iff.mpr ⟨htx, hcut⟩
    have hstep := (step_of_moment (.inr hcut) hhost).trans (congrArg _ (interfaceMoment_take rfl rfl hready))
    have hpartial' : ∀ n, n < bytes.length → cutFrame (s.rx ++ [b] ++ bytes.take n) = none := fun n hn => by
      simpa using hpartial (n + 1) (Nat.succ_lt_succ hn)
    calc Host.Core.run core ((b :: bytes).length + k) s = Host.Core.run core (bytes.length + k + 1) s := by
          rw [List.length_cons, Nat.add_right_comm]
      _ = Host.Core.run core (bytes.length + k) _ := run_succ core hstep _
      _ = Host.Core.run core k _ := ih htx rfl hpartial'
      _ = _ := by simp [takeCommandByte]

/-- Settles O53: the frame's bytes are received one by one (`run_receive`), and the step after the last executes the frame. -/
theorem offeredFrameIsExecuted : Obligations.OfferedFrameIsExecuted := by
  intro s f ready rest hfits htx hrx hhost
  obtain ⟨t, -, -, -, -, hrun, -⟩ := transact_responds f { s with host := rest, cmdStream := s.cmdStream ++ encodeFrame f }
  refine ⟨t, ?_, hrun⟩
  have hpartial : ∀ n, n < (encodeFrame f).length → cutFrame (s.rx ++ (encodeFrame f).take n) = none := by
    simpa [hrx] using fun n => cutFrame_take_encodeFrame (n := n) hfits
  have hcut : cutFrame (s.rx ++ encodeFrame f) = some (f, []) := by simpa [hrx] using cutFrame_encodeFrame hfits []
  have hexecute : step { s with rx := s.rx ++ encodeFrame f, cmdStream := s.cmdStream ++ encodeFrame f, host := rest } =
      .next t := by
    rw [step_of_frame (by exact htx) hcut, ← hrun, dropFrame, ← hrx]
  calc Host.Core.run core (f.payload.length + 3) s = Host.Core.run core ((encodeFrame f).length + 1) s := rfl
    _ = Host.Core.run core 1 _ := run_receive 1 htx hhost hpartial
    _ = .next t := run_succ core hexecute 0

/-- Response bytes that the host takes moment by moment leave one by one, in order (R61). -/
theorem run_send {s : State} {moments rest : List Moment} (hlen : moments.length = s.tx.length)
    (htakes : ∀ m ∈ moments, m.rst = false ∧ m.rspReady = true) (hhost : s.host = moments ++ rest) :
    Host.Core.run core moments.length s = .next { s with tx := [], rspStream := s.rspStream ++ s.tx, host := rest } := by
  induction moments generalizing s with
  | nil =>
    have htx : s.tx = [] := List.length_eq_zero_iff.mp hlen.symm
    obtain rfl : s.host = rest := hhost
    rw [htx, List.append_nil, ← htx]
    rfl
  | cons m moments ih =>
    obtain ⟨b, tail, htx⟩ := List.exists_cons_of_length_eq_add_one hlen.symm
    obtain ⟨hrst, hready⟩ := htakes m List.mem_cons_self
    have hwait : s.tx ≠ [] := by simp [htx]
    have hstep := (step_of_moment (.inl hwait) hhost).trans
      (congrArg _ (interfaceMoment_send (s := { s with host := moments ++ rest }) hrst htx hready))
    calc Host.Core.run core (m :: moments).length s = Host.Core.run core moments.length _ := run_succ core hstep _
      _ = _ := ih (by simpa [htx] using hlen) (fun m' hm' => htakes m' (List.mem_cons_of_mem m hm')) rfl
      _ = _ := by simp [htx]

/-- Settles O54: `run_send` with as many moments as bytes. -/
theorem takenResponseLeavesInOrder : Obligations.TakenResponseLeavesInOrder := by
  intro s moments rest hlen htakes hhost
  rw [← hlen]
  exact run_send hlen htakes hhost

end Sys2Proof.Machine
